-- ==== Sys2Proof/Word.lean ====
section
/-! DEFINITION. The word types of the block's ports and registers (00_scope.md R7, R9). -/

namespace Sys2Proof

/-- A command word, a read word, a counter or the accumulator: 32 bits, bit 0 least significant (R9, R70). -/
abbrev Word := BitVec 32

/-- An input byte, an input character, a symbol or an OUT item: 8 bits (R7, SYM_W). -/
abbrev Byte := BitVec 8

end Sys2Proof
end

