-- ==== Sys2Proof/Config.lean ====
section
/-! DEFINITION. The parameters 00_scope.md R7 fixes for the block, and the names of its six alphabets (R3). The one
parameter R7 leaves open, ALPHABET_ROM, has its type in Machine/Alphabet.lean and stands in State (log 3). -/

namespace Sys2Proof

/-- The six alphabets, in the order of their codes 0 to 5 (00_scope.md R3, 10_state.md R23). -/
inductive Alphabet where
  | base2
  | base16
  | base32
  | base32hex
  | base64
  | base64url
  deriving DecidableEq, Repr

/-- K_SET: the legal bit-group widths (R2, R7). -/
abbrev Config.kSet : List Nat := [1, 4, 5, 6]

/-- CNT_W and ACC_W: the counters and the accumulator hold values below this (R7). -/
abbrev Config.wordModulus : Nat := 2 ^ 32

/-- SIZE_N_W: the width of the size commands' operand (R7). -/
abbrev Config.sizeOperandBits : Nat := 24

/-- N_ALPHA: how many alphabet codes name an alphabet (R7). -/
abbrev Config.alphabetCount : Nat := 6

/-- SKIP_N: how many bits the skip mask has, one for each byte value (R7). -/
abbrev Config.skipBits : Nat := 256

end Sys2Proof
end

