-- ==== Sys2Proof/Syntax.lean ====
section
/-! DEFINITION. The command set: one constructor for each row of spec/opcode_table.json (30_encoding.md R73), its
arguments the row's operand fields (R71). -/

namespace Sys2Proof

/-- A command of the block. No operand names a register (R72). -/
inductive Instr where
  /-- NOP (R170). -/
  | nop
  /-- CFG_WR, layout C (R171): ALPHA, UCASE, PAD_EN, STRICT. -/
  | cfgWr (alpha : BitVec 3) (ucase padEn strict : Bool)
  /-- SKIP_SET, layout S (R172): the byte value C and the new bit V. -/
  | skipSet (c : Byte) (v : Bool)
  /-- SKIP_CLR (R173). -/
  | skipClr
  /-- ENC_BEGIN (R121). -/
  | encBegin
  /-- ENC_BYTE, layout B (R122): the input byte. -/
  | encByte (b : Byte)
  /-- ENC_END (R123). -/
  | encEnd
  /-- DEC_BEGIN (R141). -/
  | decBegin
  /-- DEC_SYM, layout B (R142): the input character. -/
  | decSym (c : Byte)
  /-- DEC_END (R148). -/
  | decEnd
  /-- ABORT (R174). -/
  | abort
  /-- CLR_ERR (R175). -/
  | clrErr
  /-- SIZE_ENC, layout Z (R190): the input length. -/
  | sizeEnc (n : BitVec 24)
  /-- SIZE_DEC, layout Z (R191): the input length. -/
  | sizeDec (n : BitVec 24)
  deriving DecidableEq, Repr

end Sys2Proof
end

