-- ==== Sys2Proof/WellFormed.lean ====
section
/-! DEFINITION. Which terms of Instr are commands: the value check of 30_encoding.md R76. Every other limit of a field
is its width, which the type of the argument holds. -/

namespace Sys2Proof

/-- A command whose operand values are legal: only CFG_WR has a value check, ALPHA at most 5 (R76). -/
def Instr.wellFormed : Instr → Bool
  | .nop => true
  | .cfgWr alpha _ _ _ => decide (alpha.toNat < Config.alphabetCount)
  | .skipSet _ _ => true
  | .skipClr => true
  | .encBegin => true
  | .encByte _ => true
  | .encEnd => true
  | .decBegin => true
  | .decSym _ => true
  | .decEnd => true
  | .abort => true
  | .clrErr => true
  | .sizeEnc _ => true
  | .sizeDec _ => true

end Sys2Proof
end

