-- ==== Sys2Proof/Decode.lean ====
section
/-! DEFINITION. The decoder, total on all 2^32 words (30_encoding.md R70 to R78), and the encoder written from the same
tables (R71, R73, R79). -/

namespace Sys2Proof

/-- Why a word is illegal (R74). All three have one effect, CMDERR ILLEGAL; the name is the decoder's own. -/
inductive IllegalWord where
  /-- OP is 0xE or 0xF (R75). -/
  | reservedOpcode
  /-- A reserved bit of the opcode's layout is 1 (R74). -/
  | reservedBit
  /-- CFG_WR with ALPHA 6 or 7 (R76). -/
  | alphabetCode
  deriving DecidableEq, Repr

/-- OP = w[31:28] (R70). -/
def opField (w : Word) : BitVec 4 := w.extractLsb' 28 4

/-- w[7:0]: B of layout B, C of layout S (R72). -/
def byteField (w : Word) : Byte := w.extractLsb' 0 8

/-- w[23:0]: N of layout Z (R72). -/
def sizeField (w : Word) : BitVec 24 := w.extractLsb' 0 24

/-- w[2:0]: ALPHA of layout C (R71). -/
def alphaField (w : Word) : BitVec 3 := w.extractLsb' 0 3

/-- One row of the opcode map: the word is the row's command when (w & mask) = match (R73). -/
def rowDecode (w matchWord maskWord : Word) (i : Instr) : Except IllegalWord Instr :=
  if w &&& maskWord = matchWord then .ok i else .error .reservedBit

/-- CFG_WR's value check, after its layout (R76). -/
def alphaDecode (i : Instr) : Except IllegalWord Instr :=
  if i.wellFormed then .ok i else .error .alphabetCode

/-- The decoder: OP selects the row, the row's mask checks the reserved bits, CFG_WR's ALPHA is checked by value
(R70, R73, R74, R76). -/
def decode (w : Word) : Except IllegalWord Instr :=
  match (opField w).toNat with
  | 0x0 => rowDecode w 0x00000000 0xFFFFFFFF .nop
  | 0x1 =>
    (rowDecode w 0x10000000 0xFFFFFFC0
      (.cfgWr (alphaField w) (w.getLsbD 3) (w.getLsbD 4) (w.getLsbD 5))).bind alphaDecode
  | 0x2 => rowDecode w 0x20000000 0xFFFFFE00 (.skipSet (byteField w) (w.getLsbD 8))
  | 0x3 => rowDecode w 0x30000000 0xFFFFFFFF .skipClr
  | 0x4 => rowDecode w 0x40000000 0xFFFFFFFF .encBegin
  | 0x5 => rowDecode w 0x50000000 0xFFFFFF00 (.encByte (byteField w))
  | 0x6 => rowDecode w 0x60000000 0xFFFFFFFF .encEnd
  | 0x7 => rowDecode w 0x70000000 0xFFFFFFFF .decBegin
  | 0x8 => rowDecode w 0x80000000 0xFFFFFF00 (.decSym (byteField w))
  | 0x9 => rowDecode w 0x90000000 0xFFFFFFFF .decEnd
  | 0xA => rowDecode w 0xA0000000 0xFFFFFFFF .abort
  | 0xB => rowDecode w 0xB0000000 0xFFFFFFFF .clrErr
  | 0xC => rowDecode w 0xC0000000 0xFF000000 (.sizeEnc (sizeField w))
  | 0xD => rowDecode w 0xD0000000 0xFF000000 (.sizeDec (sizeField w))
  | _ => .error .reservedOpcode

/-- The opcode map's match and mask words, in the order of the opcodes (R73). -/
def opcodeRows : List (Word × Word) :=
  [(0x00000000, 0xFFFFFFFF), (0x10000000, 0xFFFFFFC0), (0x20000000, 0xFFFFFE00), (0x30000000, 0xFFFFFFFF),
    (0x40000000, 0xFFFFFFFF), (0x50000000, 0xFFFFFF00), (0x60000000, 0xFFFFFFFF), (0x70000000, 0xFFFFFFFF),
    (0x80000000, 0xFFFFFF00), (0x90000000, 0xFFFFFFFF), (0xA0000000, 0xFFFFFFFF), (0xB0000000, 0xFFFFFFFF),
    (0xC0000000, 0xFF000000), (0xD0000000, 0xFF000000)]

/-- The row of a command in opcodeRows, its OP (R73). -/
def Instr.opcode : Instr → Nat
  | .nop => 0x0
  | .cfgWr _ _ _ _ => 0x1
  | .skipSet _ _ => 0x2
  | .skipClr => 0x3
  | .encBegin => 0x4
  | .encByte _ => 0x5
  | .encEnd => 0x6
  | .decBegin => 0x7
  | .decSym _ => 0x8
  | .decEnd => 0x9
  | .abort => 0xA
  | .clrErr => 0xB
  | .sizeEnc _ => 0xC
  | .sizeDec _ => 0xD

/-- A one-bit field placed at bit p of a word. -/
def bitAt (p : Nat) (b : Bool) : Word := if b then BitVec.twoPow 32 p else 0

/-- The encoder: the word R79 gives each command, every reserved bit 0 (R71, R79). -/
def encode : Instr → Word
  | .nop => 0x00000000
  | .cfgWr alpha ucase padEn strict =>
    0x10000000 ||| bitAt 5 strict ||| bitAt 4 padEn ||| bitAt 3 ucase ||| alpha.setWidth 32
  | .skipSet c v => 0x20000000 ||| bitAt 8 v ||| c.setWidth 32
  | .skipClr => 0x30000000
  | .encBegin => 0x40000000
  | .encByte b => 0x50000000 ||| b.setWidth 32
  | .encEnd => 0x60000000
  | .decBegin => 0x70000000
  | .decSym c => 0x80000000 ||| c.setWidth 32
  | .decEnd => 0x90000000
  | .abort => 0xA0000000
  | .clrErr => 0xB0000000
  | .sizeEnc n => 0xC0000000 ||| n.setWidth 32
  | .sizeDec n => 0xD0000000 ||| n.setWidth 32

/-- The command the decoder reads from a table word of nbits bits; the bits above nbits are 0, and a command has 32
bits, bit 0 least significant, with no byte order (R55, R70). -/
def decodeTableWord (nbits w : Nat) : Option Instr :=
  if w % 2 ^ nbits < Config.wordModulus then (decode (BitVec.ofNat 32 (w % 2 ^ nbits))).toOption else none

end Sys2Proof
end

