-- ==== Sys2Proof/Machine/Widths.lean ====
section
/-! DEFINITION. The alphabet codes, the width k of each alphabet and the quantities every rule derives from k
(00_scope.md R8, R9; 40_alphabet.md R100). -/

namespace Sys2Proof.Machine

/-- The code of an alphabet, CFG[2:0] (10_state.md R23). -/
def alphabetCode : Alphabet → BitVec 3
  | .base2 => 0
  | .base16 => 1
  | .base32 => 2
  | .base32hex => 3
  | .base64 => 4
  | .base64url => 5

/-- The alphabet a code names; codes 6 and 7 name none (30_encoding.md R76). -/
def alphabetOfCode (c : BitVec 3) : Option Alphabet :=
  match c.toNat with
  | 0 => some .base2
  | 1 => some .base16
  | 2 => some .base32
  | 3 => some .base32hex
  | 4 => some .base64
  | 5 => some .base64url
  | _ => none

/-- K(a), the bits one symbol of the alphabet carries (40_alphabet.md R100). -/
def widthOf : Alphabet → Nat
  | .base2 => 1
  | .base16 => 4
  | .base32 => 5
  | .base32hex => 5
  | .base64 => 6
  | .base64url => 6

/-- SPB(k) = 8 / gcd(8, k), the symbols of a block (R8). -/
def symbolsPerBlock (k : Nat) : Nat := 8 / Nat.gcd 8 k

/-- BPB(k) = k / gcd(8, k), the bytes of a block (R8). -/
def bytesPerBlock (k : Nat) : Nat := k / Nat.gcd 8 k

/-- mask(n) = 2^n - 1 (R8). -/
def mask (n : Nat) : Nat := 2 ^ n - 1

/-- The pads that bring a symbol count to a multiple of the block: (S - count mod S) mod S with S = SPB(k). ENC_END
emits this many (41_encoder.md R123), DEC_END expects this many (42_decoder.md R150). -/
def padsDue (k count : Nat) : Nat :=
  (symbolsPerBlock k - count % symbolsPerBlock k) % symbolsPerBlock k

/-- The widths that padding applies to, {5, 6} (41_encoder.md R123). -/
def padWidth (k : Nat) : Bool := k == 5 || k == 6

/-- sat_inc(x) = min(x + 1, 2^32 - 1) (R9). -/
def satInc (x : Word) : Word := if x = BitVec.allOnes 32 then x else x + 1

end Sys2Proof.Machine
end

