-- ==== Sys2Proof/Machine/Alphabet.lean ====
section
/-! DEFINITION. The alphabet ROM: the parameter ALPHABET_ROM with its well-formedness, the forward lookup Fwd, the
reverse lookup Rlut, the pad symbol, and the spec's default tables (40_alphabet.md R100 to R116). -/

namespace Sys2Proof.Machine

/-- One alphabet of the ROM: UP(a) in value order, the lower-case variants where the alphabet has case variants
(none says FOLD(a) = 0, R110), and PadSym(a) (R111). -/
structure AlphabetEntry where
  up : List Byte
  low : Option (List Byte)
  pad : Option Byte
  deriving DecidableEq, Repr

/-- ALPHABET_ROM as data: one entry for each of the six alphabets (00_scope.md R7). -/
structure RomData where
  base2 : AlphabetEntry
  base16 : AlphabetEntry
  base32 : AlphabetEntry
  base32hex : AlphabetEntry
  base64 : AlphabetEntry
  base64url : AlphabetEntry
  deriving DecidableEq, Repr

/-- The entry of an alphabet. -/
def RomData.entry (d : RomData) : Alphabet → AlphabetEntry
  | .base2 => d.base2
  | .base16 => d.base16
  | .base32 => d.base32
  | .base32hex => d.base32hex
  | .base64 => d.base64
  | .base64url => d.base64url

/-- No symbol stands twice in the list (R102, conditions 2 and 3). -/
def allDistinct : List Byte → Bool
  | [] => true
  | c :: cs => !cs.contains c && allDistinct cs

/-- No entry of one table equals an entry of the other at a different value (R102, condition 3). -/
def crossDistinct (low up : List Byte) : Bool :=
  low.zipIdx.all fun (c, v) => up.zipIdx.all fun (d, w) => v == w || c != d

/-- R102 for the lower-case variants of one alphabet: one for each value, pairwise distinct, none equal to another
value's symbol of either case (condition 3). -/
def lowWellFormed (e : AlphabetEntry) : Bool :=
  match e.low with
  | none => true
  | some low => low.length == e.up.length && allDistinct low && crossDistinct low e.up

/-- R102 for the pad symbol of one alphabet of width k: no data symbol of either case, and none at all when k is 1 or 4
(conditions 4 and 5). -/
def padWellFormed (k : Nat) (e : AlphabetEntry) : Bool :=
  match e.pad with
  | none => true
  | some p => padWidth k && !e.up.contains p && !(e.low.getD []).contains p

/-- R102 for one alphabet of width k; condition 1 is the length of UP(a), 2^k. -/
def AlphabetEntry.wellFormed (k : Nat) (e : AlphabetEntry) : Bool :=
  e.up.length == 2 ^ k && allDistinct e.up && lowWellFormed e && padWellFormed k e

/-- R102 for the whole ROM. -/
def RomData.wellFormed (d : RomData) : Bool :=
  [Alphabet.base2, .base16, .base32, .base32hex, .base64, .base64url].all
    fun a => (d.entry a).wellFormed (widthOf a)

/-- ALPHABET_ROM as the model takes it: ROM data that R102 admits. A ROM that breaks R102 cannot be given to the model
(93_implementation_defined.md X8). -/
structure AlphabetRom where
  data : RomData
  wf : data.wellFormed = true
  deriving DecidableEq, Repr

/-- Taking ROM data as the parameter: refused when it breaks R102. -/
def AlphabetRom.ofData (d : RomData) : Option AlphabetRom :=
  if h : d.wellFormed = true then some ⟨d, h⟩ else none

/-- Fwd(a, u, v): the symbol of value v, in lower case when u is 0 and the alphabet has case variants (R101, R109).
It is asked only for v < 2^K(a); above that the model answers 0 (log 6). -/
def AlphabetRom.fwd (r : AlphabetRom) (a : Alphabet) (u : Bool) (v : Nat) : Byte :=
  match u, (r.data.entry a).low with
  | false, some low => low.getD v 0
  | _, _ => (r.data.entry a).up.getD v 0

/-- FOLD(a): whether the alphabet has case variants (R110). -/
def AlphabetRom.fold (r : AlphabetRom) (a : Alphabet) : Bool := (r.data.entry a).low.isSome

/-- PadSym(a) (R111). -/
def AlphabetRom.padSym (r : AlphabetRom) (a : Alphabet) : Option Byte := (r.data.entry a).pad

/-- The class of a byte: VALUE v, PAD or INVALID (R112). -/
inductive SymbolClass where
  | value (v : Nat)
  | pad
  | invalid
  deriving DecidableEq, Repr

/-- Rlut(a, c): a symbol of either case has its value, the pad symbol is PAD, every other byte is INVALID (R112). -/
def AlphabetRom.rlut (r : AlphabetRom) (a : Alphabet) (c : Byte) : SymbolClass :=
  match (r.data.entry a).up.idxOf? c with
  | some v => .value v
  | none =>
    match ((r.data.entry a).low.getD []).idxOf? c with
    | some v => .value v
    | none => if (r.data.entry a).pad = some c then .pad else .invalid

/-- The n bytes that follow one another from a first one. -/
def byteRun (first : Byte) (n : Nat) : List Byte := (List.range n).map fun i => first + BitVec.ofNat 8 i

/-- The lower-case variant of a symbol: a letter plus 0x20, any other symbol itself (R109). -/
def lowerVariant (c : Byte) : Byte := if 0x41 ≤ c.toNat ∧ c.toNat ≤ 0x5A then c + 0x20 else c

/-- base2: '0', '1' (R103). -/
def defaultBase2 : AlphabetEntry := ⟨byteRun 0x30 2, none, none⟩

/-- base16: '0' to '9', 'A' to 'F', with case variants (R104, R109, R110). -/
def defaultBase16 : AlphabetEntry :=
  let up := byteRun 0x30 10 ++ byteRun 0x41 6
  ⟨up, some (up.map lowerVariant), none⟩

/-- base32: 'A' to 'Z', '2' to '7', with case variants, pad '=' (R105, R109 to R111). -/
def defaultBase32 : AlphabetEntry :=
  let up := byteRun 0x41 26 ++ byteRun 0x32 6
  ⟨up, some (up.map lowerVariant), some 0x3D⟩

/-- base32hex: '0' to '9', 'A' to 'V', with case variants, pad '=' (R106, R109 to R111). -/
def defaultBase32hex : AlphabetEntry :=
  let up := byteRun 0x30 10 ++ byteRun 0x41 22
  ⟨up, some (up.map lowerVariant), some 0x3D⟩

/-- The first 62 symbols of base64 and base64url: 'A' to 'Z', 'a' to 'z', '0' to '9' (R107, R108). -/
def alphanumerics : List Byte := byteRun 0x41 26 ++ byteRun 0x61 26 ++ byteRun 0x30 10

/-- base64: the alphanumerics, '+', '/', pad '=' (R107, R111). -/
def defaultBase64 : AlphabetEntry := ⟨alphanumerics ++ [0x2B, 0x2F], none, some 0x3D⟩

/-- base64url: the alphanumerics, '-', '_', pad '=' (R108, R111). -/
def defaultBase64url : AlphabetEntry := ⟨alphanumerics ++ [0x2D, 0x5F], none, some 0x3D⟩

/-- The default tables as data (00_scope.md R7). -/
def defaultRomData : RomData :=
  ⟨defaultBase2, defaultBase16, defaultBase32, defaultBase32hex, defaultBase64, defaultBase64url⟩

/-- The default ALPHABET_ROM, the RFC 4648 tables (R103 to R111; log 3). -/
def defaultRom : AlphabetRom := ⟨defaultRomData, by decide +kernel⟩

end Sys2Proof.Machine
end

