-- ==== Sys2Proof/Machine/State.lean ====
section
/-! DEFINITION. The state of the block (10_state.md R21), the events of its input ports (R44), and the state right after
reset (R46). -/

namespace Sys2Proof.Machine

/-- CFG, the configuration register, by its fields (10_state.md R22 to R26). Its ALPHA field names an alphabet and its
bits 7:6 are 0 in every state, since CFG_WR takes no other value (R23, R27); cfgByte is the register as it reads. -/
structure Cfg where
  alpha : Alphabet
  ucase : Bool
  padEn : Bool
  strict : Bool
  deriving DecidableEq, Repr

/-- MODE (R28). -/
inductive Mode where
  /-- No frame is open. -/
  | idle
  /-- An encode frame is open. -/
  | enc
  /-- A decode frame is open and has not failed. -/
  | dec
  /-- A decode frame failed with invalid-character; input is dropped. -/
  | halt
  deriving DecidableEq, Repr

/-- The decode errors ERR records; NONE is Option's none (R35). -/
inductive DecodeError where
  /-- INVALID_CHAR, code 1, raised by DEC_SYM. -/
  | invalidChar
  /-- INVALID_LENGTH, code 2, raised by DEC_END. -/
  | invalidLength
  deriving DecidableEq, Repr

/-- The command errors CMDERR records; NONE is Option's none (R37). -/
inductive CommandError where
  /-- ILLEGAL, code 1: a word that is no command. -/
  | illegal
  /-- SEQUENCE, code 2: a command its mode does not allow. -/
  | sequence
  deriving DecidableEq, Repr

/-- What the host presents at the input ports in one step (R44; log 1). -/
inductive PortEvent where
  /-- A command word on cmd. -/
  | command (w : Word)
  /-- The reset event on rst. -/
  | reset
  /-- A command word and the reset event together (70_reset_and_hazards.md R231). -/
  | commandWithReset (w : Word)
  deriving DecidableEq, Repr

/-- The block's complete state: the tuple of R21, field for field, then two fields that are no state of the spec: the
parameter ALPHABET_ROM (R43; log 3) and the host's presented events not yet taken (log 1). -/
structure State where
  /-- CFG (R22). -/
  cfg : Cfg
  /-- MODE (R28). -/
  mode : Mode
  /-- ACC, the bit buffer (R29). -/
  acc : Word
  /-- BITS, the bit count (R30). -/
  bits : Word
  /-- INCNT (R31). -/
  incnt : Word
  /-- DATACNT (R32). -/
  datacnt : Word
  /-- PADCNT (R33). -/
  padcnt : Word
  /-- OUTCNT (R34). -/
  outcnt : Word
  /-- ERR (R35). -/
  err : Option DecodeError
  /-- ERR_POS (R36). -/
  errPos : Word
  /-- CMDERR (R37). -/
  cmdErr : Option CommandError
  /-- DONE (R38). -/
  done : Bool
  /-- SIZE (R39). -/
  size : Word
  /-- SKIP, bit c for byte value c (R40). -/
  skip : BitVec 256
  /-- OUT, the first item emitted first (R42). -/
  out : List Byte
  /-- The parameter ALPHABET_ROM; no event writes it (R43). -/
  rom : AlphabetRom
  /-- The events the host has presented and the block has not taken, the first one first. -/
  input : List PortEvent
  deriving DecidableEq, Repr

/-- No event stops the block: each of its four error kinds is a value in ERR or CMDERR (60_exceptions.md R200, R204), so
this type has no constructor and no step ends in a fault (safe: nothing is cut off). -/
inductive Fault where
  deriving DecidableEq, Repr

/-- The reasons of a refused step. -/
inductive Refusal where
  /-- An instruction that has no meaning in the model yet, by its mnemonic; no arm of exec answers it (safe). -/
  | notModelled (mnemonic : String)
  deriving DecidableEq, Repr

/-- CFG's reset value, 0x1C: base64, upper case, padding, not strict (R22, R46). -/
def Cfg.reset : Cfg := ⟨.base64, true, true, false⟩

/-- The machine right after reset: every register as R46 lists it. OUT is empty because nothing has been emitted since
the model's start (log 4); the ROM is the default (log 3); the host has presented nothing (log 1). -/
def State.reset : State where
  cfg := Cfg.reset
  mode := .idle
  acc := 0
  bits := 0
  incnt := 0
  datacnt := 0
  padcnt := 0
  outcnt := 0
  err := none
  errPos := 0
  cmdErr := none
  done := false
  size := 0
  skip := 0
  out := []
  rom := defaultRom
  input := []

end Sys2Proof.Machine
end

