-- ==== Sys2Proof/Machine/Flags.lean ====
section
/-! DEFINITION. The status fields: their codes, the STATUS and CFG words, the checks that decide a status (mode legality,
the length checks), and the one-symbol questions the rules ask of the configuration (10_state.md R22 to R41,
42_decoder.md R149 to R151, 60_exceptions.md R201). -/

namespace Sys2Proof.Machine

/-- k, the width of the selected alphabet (00_scope.md R11). -/
def State.k (s : State) : Nat := widthOf s.cfg.alpha

/-- SymOut(v) = Fwd(CFG.ALPHA, CFG.UCASE, v), the encoder's symbol map (40_alphabet.md R116). -/
def State.symOut (s : State) (v : Nat) : Byte := s.rom.fwd s.cfg.alpha s.cfg.ucase v

/-- Rlut(CFG.ALPHA, c), the decoder's classification (40_alphabet.md R116). -/
def State.classify (s : State) (c : Byte) : SymbolClass := s.rom.rlut s.cfg.alpha c

/-- SKIP[c] (10_state.md R40). -/
def State.skips (s : State) (c : Byte) : Bool := s.skip.getLsbD c.toNat

/-- MODE's code (R28). -/
def modeCode : Mode → Nat
  | .idle => 0
  | .enc => 1
  | .dec => 2
  | .halt => 3

/-- ERR's code; 3 is never produced (R35). -/
def errCode : Option DecodeError → Nat
  | none => 0
  | some .invalidChar => 1
  | some .invalidLength => 2

/-- CMDERR's code; 3 is never produced (R37). -/
def cmdErrCode : Option CommandError → Nat
  | none => 0
  | some .illegal => 1
  | some .sequence => 2

/-- A one-bit field at bit p of a register's value. -/
def fieldBit (p : Nat) (b : Bool) : Nat := if b then 2 ^ p else 0

/-- CFG as the 8-bit register reads: ALPHA, UCASE << 3, PAD_EN << 4, STRICT << 5, bits 7:6 zero (R22, R27). -/
def cfgByte (c : Cfg) : Byte :=
  BitVec.ofNat 8 ((alphabetCode c.alpha).toNat + fieldBit 3 c.ucase + fieldBit 4 c.padEn + fieldBit 5 c.strict)

/-- STATUS = MODE | ERR << 2 | CMDERR << 4 | DONE << 6 | K << 8 (R41). -/
def State.status (s : State) : Word :=
  BitVec.ofNat 32
    (modeCode s.mode ||| errCode s.err <<< 2 ||| cmdErrCode s.cmdErr <<< 4 ||| fieldBit 6 s.done ||| s.k <<< 8)

/-- What a mode does with a legal command: ok, drop or SEQ (60_exceptions.md R201). -/
inductive ModeCell where
  | ok
  | drop
  | seq
  deriving DecidableEq, Repr

/-- The mode legality table (60_exceptions.md R201). -/
def modeRule : Instr → Mode → ModeCell
  | .nop, _ => .ok
  | .cfgWr _ _ _ _, .idle => .ok
  | .cfgWr _ _ _ _, _ => .seq
  | .skipSet _ _, .idle => .ok
  | .skipSet _ _, _ => .seq
  | .skipClr, .idle => .ok
  | .skipClr, _ => .seq
  | .encBegin, .idle => .ok
  | .encBegin, _ => .seq
  | .encByte _, .enc => .ok
  | .encByte _, _ => .seq
  | .encEnd, .enc => .ok
  | .encEnd, _ => .seq
  | .decBegin, .idle => .ok
  | .decBegin, _ => .seq
  | .decSym _, .dec => .ok
  | .decSym _, .halt => .drop
  | .decSym _, _ => .seq
  | .decEnd, .dec => .ok
  | .decEnd, .halt => .ok
  | .decEnd, _ => .seq
  | .abort, _ => .ok
  | .clrErr, _ => .ok
  | .sizeEnc _, _ => .ok
  | .sizeDec _, _ => .ok

/-- The residue check: fewer bits left over than one symbol carries (42_decoder.md R149). -/
def State.residueOk (s : State) : Bool := decide (s.bits.toNat < s.k)

/-- The padding check: no pad, or exactly the pads the encoder would have emitted (42_decoder.md R150). -/
def State.paddingOk (s : State) : Bool :=
  decide (s.padcnt.toNat = 0 ∨ s.padcnt.toNat = padsDue s.k s.datacnt.toNat)

/-- The residual-bit check, made only under CFG.STRICT: the bits left over are all zero (42_decoder.md R151). -/
def State.residualOk (s : State) : Bool := !s.cfg.strict || decide (s.acc = 0)

/-- The three length checks of DEC_END together (42_decoder.md R148). -/
def State.lengthOk (s : State) : Bool := s.residueOk && s.paddingOk && s.residualOk

end Sys2Proof.Machine
end

