-- ==== Sys2Proof/Machine/Operands.lean ====
section
/-! DEFINITION. Operand assembly: every operand field is unsigned and zero-extended, none is scaled or names a register
(30_encoding.md R72). -/

namespace Sys2Proof.Machine

/-- B of ENC_BYTE and C of DEC_SYM and SKIP_SET: zext of w[7:0] (R72). -/
def byteOperand (b : Byte) : Nat := b.toNat

/-- N = zext_32(w[23:0]) of SIZE_ENC and SIZE_DEC (R72). -/
def sizeOperand (n : BitVec 24) : Nat := n.toNat

/-- CFGV of CFG_WR as a register value; none when ALPHA names no alphabet (R72, R76). -/
def cfgOperand (alpha : BitVec 3) (ucase padEn strict : Bool) : Option Cfg :=
  (alphabetOfCode alpha).map fun a => ⟨a, ucase, padEn, strict⟩

/-- SKIP with bit c set to v (43_control.md R172). -/
def skipWrite (skip : BitVec 256) (c : Byte) (v : Bool) : BitVec 256 :=
  if v then skip ||| BitVec.twoPow 256 c.toNat else skip &&& ~~~(BitVec.twoPow 256 c.toNat)

end Sys2Proof.Machine
end

