-- ==== Sys2Proof/Machine/Ops.lean ====
section
/-! DEFINITION. The operations the commands share: emitting an item, raising the two classes of errors, opening and
closing a frame, the reset event, the mode check, and the packing of bits in both directions (00_scope.md R10,
41_encoder.md, 42_decoder.md, 60_exceptions.md R205 to R209, 70_reset_and_hazards.md R230). -/

namespace Sys2Proof.Machine

/-- Emit(x): append x to OUT and count it (00_scope.md R10). -/
def State.emit (s : State) (x : Byte) : State := { s with out := s.out ++ [x], outcnt := s.outcnt + 1 }

/-- Emit each item in order (20_memory.md R59). -/
def State.emitAll (s : State) : List Byte → State
  | [] => s
  | x :: xs => (s.emit x).emitAll xs

/-- raise CmdError(kind): CMDERR records the first error since it was cleared, and nothing else changes
(60_exceptions.md R205). -/
def State.raiseCmdError (s : State) (kind : CommandError) : State :=
  { s with cmdErr := match s.cmdErr with
                     | none => some kind
                     | some e => some e }

/-- raise DecodeError(kind, pos), the error entry: ERR and ERR_POS record it, and INVALID_CHAR enters HALT; after
INVALID_LENGTH the mode is left to DEC_END's closing lines (60_exceptions.md R206). -/
def State.raiseDecodeError (s : State) (kind : DecodeError) (pos : Word) : State :=
  { s with
    err := some kind
    errPos := pos
    mode := match kind with
            | .invalidChar => .halt
            | .invalidLength => s.mode }

/-- Opening a frame in mode m: the datapath, the counters and the old verdict are cleared (R121, R141). -/
def State.openFrame (s : State) (m : Mode) : State :=
  { s with
    acc := 0, bits := 0
    incnt := 0, datacnt := 0, padcnt := 0, outcnt := 0
    err := none, errPos := 0, done := false
    mode := m }

/-- Closing a frame, the way back to IDLE, also from HALT: the datapath is cleared, the counters and the verdict stay
(R123, R148, R174, R208). -/
def State.closeFrame (s : State) : State := { s with acc := 0, bits := 0, mode := .idle }

/-- The reset event: every register at its reset value; OUT, the ROM and what the host presents next are untouched
(70_reset_and_hazards.md R230, 10_state.md R46). -/
def State.resetEvent (s : State) : State :=
  { State.reset with out := s.out, rom := s.rom, input := s.input }

/-- The mode check of a legal command, after which its own rule runs: ok gives the command's effect, drop changes
nothing, SEQ raises SEQUENCE (60_exceptions.md R201, R209). -/
def inMode (i : Instr) (s effect : State) : Host.Outcome State Fault Refusal :=
  match modeRule i s.mode with
  | .ok => .next effect
  | .drop => .next s
  | .seq => .next (s.raiseCmdError .sequence)

/-- Bits entering the accumulator below the bits it holds: (ACC << width) | value, an unbounded natural
(20_memory.md R54, 00_scope.md R9). -/
def State.shiftIn (s : State) (width value : Nat) : Nat := (s.acc.toNat <<< width) ||| value

/-- ACC and BITS after a command: the low n bits of t, n of them (10_state.md R29). -/
def State.holdBits (s : State) (t n : Nat) : State :=
  { s with acc := BitVec.ofNat 32 (t &&& mask n), bits := BitVec.ofNat 32 n }

/-- The encoder's loop "while n >= k": the k-bit groups taken from the top of the n held bits of t, and the bits left
(41_encoder.md R122). The first argument bounds the passes; n of them are enough, since k is at least 1. -/
def takeGroups (k t : Nat) : Nat → Nat → List Nat × Nat
  | 0, n => ([], n)
  | passes + 1, n =>
    if n < k then ([], n)
    else
      let rest := takeGroups k t passes (n - k)
      (((t >>> (n - k)) &&& mask k) :: rest.1, rest.2)

/-- The value of the final partial group: the residual bits, then zeros (41_encoder.md R123, 90_conflicts.md C9). -/
def State.finalGroup (s : State) : Nat := (s.acc.toNat <<< (s.k - s.bits.toNat)) &&& mask s.k

/-- The symbol of the final partial group, when bits remain (41_encoder.md R123). -/
def State.finalSymbol (s : State) : List Byte :=
  if s.bits.toNat > 0 then [s.symOut s.finalGroup] else []

/-- The pads of ENC_END after its data symbol, s being the state in which they start: pads are emitted while OUTCNT is
no multiple of SPB(k), which is padsDue of them, when CFG.PAD_EN is 1, k is 5 or 6 and the alphabet has a pad
(41_encoder.md R123). -/
def State.finalPads (s : State) : List Byte :=
  match s.rom.padSym s.cfg.alpha with
  | none => []
  | some p => if s.cfg.padEn && padWidth s.k then List.replicate (padsDue s.k s.outcnt.toNat) p else []

end Sys2Proof.Machine
end

