-- ==== Sys2Proof/Machine/Control.lean ====
section
/-! DEFINITION. The control commands: NOP, CFG_WR, SKIP_SET, SKIP_CLR, ABORT, CLR_ERR (43_control.md). -/

namespace Sys2Proof.Machine

/-- NOP does nothing (R170). -/
def execNop (s : State) : Host.Outcome State Fault Refusal := inMode .nop s s

/-- CFG_WR: CFG <- CFGV in IDLE (R171). ALPHA 6 or 7 is no command: ILLEGAL, before the mode check (30_encoding.md R74,
R76, 60_exceptions.md R209); the decoder gives no such term (log 5). -/
def execCfgWr (alpha : BitVec 3) (ucase padEn strict : Bool) (s : State) : Host.Outcome State Fault Refusal :=
  match cfgOperand alpha ucase padEn strict with
  | none => .next (s.raiseCmdError .illegal)
  | some c => inMode (.cfgWr alpha ucase padEn strict) s { s with cfg := c }

/-- SKIP_SET: SKIP[C] <- V in IDLE (R172). -/
def execSkipSet (c : Byte) (v : Bool) (s : State) : Host.Outcome State Fault Refusal :=
  inMode (.skipSet c v) s { s with skip := skipWrite s.skip c v }

/-- SKIP_CLR: every bit of SKIP <- 0 in IDLE (R173). -/
def execSkipClr (s : State) : Host.Outcome State Fault Refusal := inMode .skipClr s { s with skip := 0 }

/-- ABORT closes any frame without completing it; nothing is emitted (R174). -/
def execAbort (s : State) : Host.Outcome State Fault Refusal := inMode .abort s s.closeFrame

/-- CLR_ERR: CMDERR <- NONE; ERR stays (R175). -/
def execClrErr (s : State) : Host.Outcome State Fault Refusal := inMode .clrErr s { s with cmdErr := none }

end Sys2Proof.Machine
end

