-- ==== Sys2Proof/Machine/Decoder.lean ====
section
/-! DEFINITION. The decoder commands with the error detector: DEC_BEGIN, DEC_SYM, DEC_END (42_decoder.md). -/

namespace Sys2Proof.Machine

/-- DEC_BEGIN opens a decode frame (R141). -/
def execDecBegin (s : State) : Host.Outcome State Fault Refusal := inMode .decBegin s (s.openFrame .dec)

/-- A data symbol of value v: its k bits enter below the held bits, and when 8 bits are held the top 8 leave as a byte
(R142, R147; 90_conflicts.md C1). -/
def decValueEffect (v : Nat) (s : State) : State :=
  let t := s.shiftIn s.k v
  let n := s.bits.toNat + s.k
  let counted := { s with datacnt := s.datacnt + 1 }
  if n ≥ 8 then (counted.emit (BitVec.ofNat 8 ((t >>> (n - 8)) &&& 0xFF))).holdBits t (n - 8)
  else counted.holdBits t n

/-- DEC_SYM in mode DEC: the character is counted, then skipped, refused, counted as a pad or taken as data
(R142 to R147). -/
def decSymEffect (c : Byte) (s : State) : State :=
  let counted := { s with incnt := s.incnt + 1 }
  if s.skips c then counted
  else
    match s.classify c with
    | .invalid => counted.raiseDecodeError .invalidChar s.incnt
    | .pad => { counted with padcnt := satInc s.padcnt }
    | .value v =>
      if s.padcnt ≠ 0 then counted.raiseDecodeError .invalidChar s.incnt
      else decValueEffect v counted

/-- DEC_SYM consumes one input character (R142). -/
def execDecSym (c : Byte) (s : State) : Host.Outcome State Fault Refusal := inMode (.decSym c) s (decSymEffect c s)

/-- DEC_END's verdict, given only in mode DEC: DONE when the length checks pass, else INVALID_LENGTH at INCNT (R148). -/
def decVerdict (s : State) : State :=
  match s.mode with
  | .dec => if s.lengthOk then { s with done := true } else s.raiseDecodeError .invalidLength s.incnt
  | .idle | .enc | .halt => s

/-- DEC_END validates the frame and closes it (R148). -/
def execDecEnd (s : State) : Host.Outcome State Fault Refusal := inMode .decEnd s (decVerdict s).closeFrame

end Sys2Proof.Machine
end

