-- ==== Sys2Proof/Machine/Encoder.lean ====
section
/-! DEFINITION. The encoder commands: ENC_BEGIN, ENC_BYTE, ENC_END (41_encoder.md). -/

namespace Sys2Proof.Machine

/-- ENC_BEGIN opens an encode frame (R121). -/
def execEncBegin (s : State) : Host.Outcome State Fault Refusal := inMode .encBegin s (s.openFrame .enc)

/-- ENC_BYTE in mode ENC: the byte enters below the held bits, every whole group leaves as a symbol, first the top one
(R122). -/
def encByteEffect (b : Byte) (s : State) : State :=
  let t := s.shiftIn 8 (byteOperand b)
  let n := s.bits.toNat + 8
  let groups := takeGroups s.k t n n
  { (s.emitAll (groups.1.map s.symOut)).holdBits t groups.2 with incnt := s.incnt + 1 }

/-- ENC_BYTE consumes one input byte (R122). -/
def execEncByte (b : Byte) (s : State) : Host.Outcome State Fault Refusal :=
  inMode (.encByte b) s (encByteEffect b s)

/-- ENC_END in mode ENC: the final partial group's symbol, then the pads, then the frame closes with DONE (R123). -/
def encEndEffect (s : State) : State :=
  let flushed := s.emitAll s.finalSymbol
  let padded := flushed.emitAll flushed.finalPads
  { padded.closeFrame with done := true }

/-- ENC_END flushes, pads and closes the frame (R123). -/
def execEncEnd (s : State) : Host.Outcome State Fault Refusal := inMode .encEnd s (encEndEffect s)

end Sys2Proof.Machine
end

