-- ==== Sys2Proof/Machine/Sizing.lean ====
section
/-! DEFINITION. The size calculator commands: SIZE_ENC, SIZE_DEC (44_sizing.md). -/

namespace Sys2Proof.Machine

/-- max_encode_size(n) for width k: ((N + BPB - 1) div BPB) * SPB (R190). -/
def maxEncodeSize (k n : Nat) : Nat := (n + bytesPerBlock k - 1) / bytesPerBlock k * symbolsPerBlock k

/-- max_decode_size(n) for width k: (N * k) div 8 (R191). -/
def maxDecodeSize (k n : Nat) : Nat := n * k / 8

/-- SIZE_ENC: SIZE <- max_encode_size(N), in any mode (R190). -/
def execSizeEnc (n : BitVec 24) (s : State) : Host.Outcome State Fault Refusal :=
  inMode (.sizeEnc n) s { s with size := BitVec.ofNat 32 (maxEncodeSize s.k (sizeOperand n)) }

/-- SIZE_DEC: SIZE <- max_decode_size(N), in any mode (R191). -/
def execSizeDec (n : BitVec 24) (s : State) : Host.Outcome State Fault Refusal :=
  inMode (.sizeDec n) s { s with size := BitVec.ofNat 32 (maxDecodeSize s.k (sizeOperand n)) }

end Sys2Proof.Machine
end

