-- ==== Sys2Proof/Machine/Dispatch.lean ====
section
/-! DEFINITION. The meaning of each command (30_encoding.md R73): one arm per constructor of Instr. -/

namespace Sys2Proof.Machine

def exec (i : Instr) (s : State) : Host.Outcome State Fault Refusal :=
  match i with
  -- 43_control.md
  | .nop => Sys2Proof.Machine.execNop s
  | .cfgWr alpha ucase padEn strict => Sys2Proof.Machine.execCfgWr alpha ucase padEn strict s
  | .skipSet c v => Sys2Proof.Machine.execSkipSet c v s
  | .skipClr => Sys2Proof.Machine.execSkipClr s
  -- 41_encoder.md
  | .encBegin => Sys2Proof.Machine.execEncBegin s
  | .encByte b => Sys2Proof.Machine.execEncByte b s
  | .encEnd => Sys2Proof.Machine.execEncEnd s
  -- 42_decoder.md
  | .decBegin => Sys2Proof.Machine.execDecBegin s
  | .decSym c => Sys2Proof.Machine.execDecSym c s
  | .decEnd => Sys2Proof.Machine.execDecEnd s
  -- 43_control.md
  | .abort => Sys2Proof.Machine.execAbort s
  | .clrErr => Sys2Proof.Machine.execClrErr s
  -- 44_sizing.md
  | .sizeEnc n => Sys2Proof.Machine.execSizeEnc n s
  | .sizeDec n => Sys2Proof.Machine.execSizeDec n s

end Sys2Proof.Machine
end

