-- ==== Sys2Proof/Machine/Ports.lean ====
section
/-! DEFINITION. The block's ports: what an accepted command word and the reset event do, and the register read port
(10_state.md R44; 20_memory.md R50 to R53, R58; 60_exceptions.md R209; 70_reset_and_hazards.md R230, R231). -/

namespace Sys2Proof.Machine

/-- Accepting a command word: its legality first (an illegal word is ILLEGAL in every mode), then the command
(60_exceptions.md R209, 30_encoding.md R74). -/
def acceptWord (w : Word) (s : State) : Host.Outcome State Fault Refusal :=
  match decode w with
  | .error _ => .next (s.raiseCmdError .illegal)
  | .ok i => exec i s

/-- One event at the input ports; a command presented with the reset is discarded (70_reset_and_hazards.md R231). -/
def takeEvent (e : PortEvent) (s : State) : Host.Outcome State Fault Refusal :=
  match e with
  | .command w => acceptWord w s
  | .reset => .next s.resetEvent
  | .commandWithReset _ => .next s.resetEvent

/-- The block takes the first presented event; while the host presents nothing it stays as it is (00_scope.md R6;
log 1). -/
def takeNextEvent (s : State) : Host.Outcome State Fault Refusal :=
  match s.input with
  | [] => .next s
  | e :: rest => takeEvent e { s with input := rest }

/-- Presenting a command word ahead of every event that waits, so that the next step takes it (log 2). -/
def State.presentFirst (s : State) (w : Word) : State := { s with input := .command w :: s.input }

/-- The register read port: Read(state, addr), a whole 32-bit word, 0 at every unlisted address, no effect on the state
(20_memory.md R51, R52, R58). -/
def readPort (s : State) (addr : BitVec 8) : Word :=
  match addr.toNat with
  | 0x00 => (cfgByte s.cfg).setWidth 32
  | 0x01 => s.status
  | 0x02 => s.acc
  | 0x03 => s.bits
  | 0x04 => s.incnt
  | 0x05 => s.datacnt
  | 0x06 => s.padcnt
  | 0x07 => s.outcnt
  | 0x08 => s.errPos
  | 0x09 => s.size
  | n => if 0x10 ≤ n ∧ n < 0x18 then s.skip.extractLsb' (32 * (n - 0x10)) 32 else 0

end Sys2Proof.Machine
end

