-- ==== Sys2Proof/Machine/Step.lean ====
section
/-! DEFINITION. One step: the block takes one event at its input ports (00_scope.md R6). -/

namespace Sys2Proof.Machine

/-- Step(state, event), the event being the first one the host has presented (00_scope.md R6; log 1). -/
def step (s : State) : Host.Outcome State Fault Refusal := takeNextEvent s

/-- s with a table word of nbits bits presented as the next command: the block loads no program, the host presents each
word (20_memory.md R53; log 2). -/
def State.withFetchWord (s : State) (nbits w : Nat) : State :=
  s.presentFirst (BitVec.ofNat 32 (w % 2 ^ nbits))

end Sys2Proof.Machine
end

