-- ==== Sys2Proof/Machine/Assembler.lean ====
section
/-! DEFINITION. The assembler notation and its pseudo-instructions, as functions that give the command words the block
sees (30_encoding.md R79, R80; log 10). Nothing in a step reads them. -/

namespace Sys2Proof.Machine

/-- ENCODE: an encode frame of the given bytes (R80; the frame of 41_encoder.md R120). -/
def encodeFrame (bytes : List Byte) : List Instr := .encBegin :: bytes.map .encByte ++ [.encEnd]

/-- DECODE: a decode frame of the given characters (R80; the frame of 42_decoder.md R140). -/
def decodeFrame (chars : List Byte) : List Instr := .decBegin :: chars.map .decSym ++ [.decEnd]

/-- SKIPS: set the skip bit of each character (R80). -/
def skipsExpansion (chars : List Byte) : List Instr := chars.map fun c => .skipSet c true

/-- CFG_WR's value for the pseudo-instruction CFG: code | not lower << 3 | not nopad << 4 | strict << 5 (R80). -/
def cfgExpansion (code : BitVec 3) (lower nopad strict : Bool) : Instr := .cfgWr code (!lower) (!nopad) strict

/-- Why a text is not a program. -/
inductive AsmError where
  /-- A character, number, quote or escape that the notation does not have. -/
  | badText
  /-- A mnemonic of neither R79 nor R80. -/
  | unknownMnemonic
  /-- Operands of another number or kind than the mnemonic's. -/
  | badOperands
  /-- An operand out of its range; it is refused, not truncated (R79). -/
  | outOfRange
  deriving DecidableEq, Repr

/-- One operand: a number (an imm, or a quoted character's byte value), a name, or a quoted string (R79, R80). -/
inductive AsmOperand where
  | number (n : Nat)
  | name (s : String)
  | text (bytes : List Byte)
  deriving DecidableEq, Repr

/-- One piece of a line. -/
inductive AsmToken where
  | word (cs : List Char)
  | char (b : Byte)
  | text (bytes : List Byte)
  | comma
  deriving DecidableEq, Repr

/-- The value of a digit below 16. -/
def digitValue (c : Char) : Option Nat :=
  if '0' ≤ c ∧ c ≤ '9' then some (c.toNat - 48)
  else if 'a' ≤ c ∧ c ≤ 'f' then some (c.toNat - 87)
  else if 'A' ≤ c ∧ c ≤ 'F' then some (c.toNat - 55)
  else none

/-- A run of digits in a base, the value of the digits before it being n. -/
def digitsValue (base : Nat) : Nat → List Char → Option Nat
  | n, [] => some n
  | n, c :: cs =>
    match digitValue c with
    | some d => if d < base then digitsValue base (base * n + d) cs else none
    | none => none

/-- An imm: 0x hexadecimal, 0b binary, else decimal (R79). -/
def immValue : List Char → Option Nat
  | '0' :: 'x' :: c :: cs => digitsValue 16 0 (c :: cs)
  | '0' :: 'b' :: c :: cs => digitsValue 2 0 (c :: cs)
  | c :: cs => digitsValue 10 0 (c :: cs)
  | [] => none

/-- One quoted character with its escapes, and the text after it; each character stands for one byte (R80). -/
def quotedChar : List Char → Option (Byte × List Char)
  | '\\' :: 'x' :: a :: b :: rest =>
    match digitValue a, digitValue b with
    | some x, some y => some (BitVec.ofNat 8 (16 * x + y), rest)
    | _, _ => none
  | '\\' :: 'n' :: rest => some (0x0A, rest)
  | '\\' :: 'r' :: rest => some (0x0D, rest)
  | '\\' :: 't' :: rest => some (0x09, rest)
  | '\\' :: '\\' :: rest => some (0x5C, rest)
  | '\\' :: '"' :: rest => some (0x22, rest)
  | '\\' :: _ => none
  | c :: rest => if c.toNat < 256 then some (BitVec.ofNat 8 c.toNat, rest) else none
  | [] => none

/-- The rest of a quoted string up to its closing quote, and the text after it; the first argument bounds its length. -/
def quotedText : Nat → List Char → Option (List Byte × List Char)
  | 0, _ => none
  | _ + 1, '"' :: rest => some ([], rest)
  | fuel + 1, cs =>
    match quotedChar cs with
    | some (b, rest) => (quotedText fuel rest).map fun (bs, after) => (b :: bs, after)
    | none => none

/-- A character of a mnemonic, a name or a number. -/
def wordChar (c : Char) : Bool := c.isAlphanum || c == '_'

/-- The tokens of one line; a semicolon starts a comment (R79). The first argument bounds their number. -/
def lineTokens : Nat → List Char → Option (List AsmToken)
  | _, [] => some []
  | 0, _ => none
  | _ + 1, ';' :: _ => some []
  | fuel + 1, ',' :: rest => (lineTokens fuel rest).map (.comma :: ·)
  | fuel + 1, '"' :: rest =>
    match quotedText fuel rest with
    | some (bs, after) => (lineTokens fuel after).map (.text bs :: ·)
    | none => none
  | fuel + 1, '\'' :: rest =>
    match quotedChar rest with
    | some (b, '\'' :: after) => (lineTokens fuel after).map (.char b :: ·)
    | _ => none
  | fuel + 1, c :: rest =>
    if c == ' ' || c == '\t' || c == '\r' then lineTokens fuel rest
    else if wordChar c then
      (lineTokens fuel (rest.dropWhile wordChar)).map (.word (c :: rest.takeWhile wordChar) :: ·)
    else none

/-- A token as an operand: a word that starts with a digit is an imm, any other word is a name (R79, R80). -/
def operandOf : AsmToken → Except AsmError AsmOperand
  | .word (c :: cs) =>
    if c.isDigit then
      match immValue (c :: cs) with
      | some n => .ok (.number n)
      | none => .error .badText
    else .ok (.name (String.ofList (c :: cs)))
  | .word [] => .error .badText
  | .char b => .ok (.number b.toNat)
  | .text bs => .ok (.text bs)
  | .comma => .error .badOperands

/-- Operands separated by commas (R79). -/
def operandsOf : List AsmToken → Except AsmError (List AsmOperand)
  | [] => .ok []
  | [t] => (operandOf t).map ([·])
  | t :: .comma :: t' :: ts => do
    let o ← operandOf t
    let os ← operandsOf (t' :: ts)
    .ok (o :: os)
  | _ => .error .badOperands

/-- An operand below a limit, refused rather than truncated (R79). -/
def inRange (n limit : Nat) (w : Word) : Except AsmError (List Word) :=
  if n < limit then .ok [w] else .error .outOfRange

/-- The names R80 gives the alphabets, with their codes. -/
def alphabetNamed : String → Option (BitVec 3)
  | "base2" => some 0
  | "base16" => some 1
  | "base32" => some 2
  | "base32hex" => some 3
  | "base64" => some 4
  | "base64url" => some 5
  | _ => none

/-- The options of the pseudo-instruction CFG, in R80's order: lower, nopad, strict. -/
def cfgOptions : List AsmOperand → Option (Bool × Bool × Bool)
  | [] => some (false, false, false)
  | [.name "lower"] => some (true, false, false)
  | [.name "nopad"] => some (false, true, false)
  | [.name "strict"] => some (false, false, true)
  | [.name "lower", .name "nopad"] => some (true, true, false)
  | [.name "lower", .name "strict"] => some (true, false, true)
  | [.name "nopad", .name "strict"] => some (false, true, true)
  | [.name "lower", .name "nopad", .name "strict"] => some (true, true, true)
  | _ => none

/-- The words of the pseudo-instruction CFG (R80). -/
def cfgWords (alpha : String) (options : List AsmOperand) : Except AsmError (List Word) :=
  match alphabetNamed alpha, cfgOptions options with
  | some code, some (lower, nopad, strict) => .ok [encode (cfgExpansion code lower nopad strict)]
  | _, _ => .error .badOperands

/-- The mnemonics that take no operand, with their commands (R79). -/
def plainMnemonic : String → Option Instr
  | "NOP" => some .nop
  | "SKIP_CLR" => some .skipClr
  | "ENC_BEGIN" => some .encBegin
  | "ENC_END" => some .encEnd
  | "DEC_BEGIN" => some .decBegin
  | "DEC_END" => some .decEnd
  | "ABORT" => some .abort
  | "CLR_ERR" => some .clrErr
  | _ => none

/-- The words of one statement; the words of CFG_WR are R79's 0x10000000 | imm8, legal or not (R79, R80). -/
def statementWords (mnemonic : String) (operands : List AsmOperand) : Except AsmError (List Word) :=
  match plainMnemonic mnemonic with
  | some i => if operands = [] then .ok [encode i] else .error .badOperands
  | none =>
    match mnemonic, operands with
    | "CFG_WR", [.number n] => inRange n 256 (0x10000000 ||| BitVec.ofNat 32 n)
    | "SKIP_SET", [.number c, .number v] =>
      if c < 256 then inRange v 2 (encode (.skipSet (BitVec.ofNat 8 c) (v == 1))) else .error .outOfRange
    | "ENC_BYTE", [.number b] => inRange b 256 (encode (.encByte (BitVec.ofNat 8 b)))
    | "DEC_SYM", [.number c] => inRange c 256 (encode (.decSym (BitVec.ofNat 8 c)))
    | "SIZE_ENC", [.number n] => inRange n (2 ^ 24) (encode (.sizeEnc (BitVec.ofNat 24 n)))
    | "SIZE_DEC", [.number n] => inRange n (2 ^ 24) (encode (.sizeDec (BitVec.ofNat 24 n)))
    | "CFG", .name alpha :: options => cfgWords alpha options
    | "ENCODE", [.text bs] => .ok ((encodeFrame bs).map encode)
    | "DECODE", [.text cs] => .ok ((decodeFrame cs).map encode)
    | "SKIPS", [.text cs] => .ok ((skipsExpansion cs).map encode)
    | "UNSKIP", [.number c] => inRange c 256 (encode (.skipSet (BitVec.ofNat 8 c) false))
    | _, _ =>
      if ["CFG_WR", "SKIP_SET", "ENC_BYTE", "DEC_SYM", "SIZE_ENC", "SIZE_DEC", "CFG", "ENCODE", "DECODE", "SKIPS",
          "UNSKIP"].contains mnemonic then .error .badOperands
      else .error .unknownMnemonic

/-- The words of one line; an empty line or a comment gives none (R79). -/
def lineWords (line : List Char) : Except AsmError (List Word) :=
  match lineTokens line.length line with
  | none => .error .badText
  | some [] => .ok []
  | some (.word m :: ts) =>
    match operandsOf ts with
    | .ok os => statementWords (String.ofList m) os
    | .error e => .error e
  | some _ => .error .badText

/-- The lines of a text. -/
def splitLines : List Char → List (List Char)
  | [] => [[]]
  | '\n' :: cs => [] :: splitLines cs
  | c :: cs =>
    match splitLines cs with
    | [] => [[c]]
    | l :: ls => (c :: l) :: ls

/-- The words of lines in order; the first refused line refuses the program. -/
def linesWords : List (List Char) → Except AsmError (List Word)
  | [] => .ok []
  | l :: ls => do
    let ws ← lineWords l
    let rest ← linesWords ls
    .ok (ws ++ rest)

/-- The command words of a program's text (R79, R80). -/
def assemble (text : String) : Except AsmError (List Word) := linesWords (splitLines text.toList)

end Sys2Proof.Machine
end

