-- ==== Sys2Proof/Safety.lean ====
section
/-! DEFINITION. The terms claims are stated in: running a list of commands, the invariants of the block
(10_state.md R45), and the codec as functions on whole byte sequences (20_memory.md R54, 41_encoder.md R120,
42_decoder.md R140), against which the frames are compared. -/

namespace Sys2Proof.Machine

/-- The state after a list of commands, each run in order; the first stop stops the list (20_memory.md R60). -/
def runAll : List Instr → State → Host.Outcome State Fault Refusal
  | [], s => .next s
  | i :: is, s =>
    match exec i s with
    | .next t => runAll is t
    | .fault r => .fault r
    | .refused r => .refused r

/-- The effect of a command error of the given kind: the first one since a clear is kept (60_exceptions.md R205). -/
abbrev State.withCommandError (s : State) (kind : CommandError) : State :=
  { s with cmdErr := some (s.cmdErr.getD kind) }

/-- The step that takes this word raises ILLEGAL and does nothing else, in every state (30_encoding.md R74). -/
abbrev RaisesIllegal (w : Word) : Prop :=
  ∀ (s : State) (rest : List PortEvent), s.input = .command w :: rest →
    step s = .next (State.withCommandError { s with input := rest } .illegal)

/-- The modes whose cell is ok in the mode legality table, row by row (60_exceptions.md R201). -/
abbrev okModes : Instr → List Mode
  | .nop | .abort | .clrErr | .sizeEnc _ | .sizeDec _ => [.idle, .enc, .dec, .halt]
  | .cfgWr _ _ _ _ | .skipSet _ _ | .skipClr | .encBegin | .decBegin => [.idle]
  | .encByte _ | .encEnd => [.enc]
  | .decSym _ => [.dec]
  | .decEnd => [.dec, .halt]

/-- The accumulator holds exactly BITS bits (R45, item 1). -/
abbrev State.AccBelowBits (s : State) : Prop := s.acc.toNat < 2 ^ s.bits.toNat

/-- In IDLE the accumulator is empty (R45, item 2). -/
abbrev State.IdleIsEmpty (s : State) : Prop := s.mode = .idle → s.bits = 0 ∧ s.acc = 0

/-- In an encode frame fewer than k bits wait and nothing is counted as decoded (R45, item 3). -/
abbrev State.EncFrameOk (s : State) : Prop :=
  s.mode = .enc → s.bits.toNat < s.k ∧ s.datacnt = 0 ∧ s.padcnt = 0

/-- In a decode frame, failed or not, BITS is what the data symbols leave over (R45, item 4). -/
abbrev State.DecFrameOk (s : State) : Prop :=
  s.mode = .dec ∨ s.mode = .halt → s.bits.toNat < 8 ∧ s.bits.toNat = s.datacnt.toNat * s.k % 8

/-- In HALT the verdict is INVALID_CHAR (R45, item 7). -/
abbrev State.HaltVerdict (s : State) : Prop := s.mode = .halt → s.err = some .invalidChar

/-- The invariants of 10_state.md R45 between any two events; its items 5 and 6 hold by the types of CFG, ERR and
CMDERR. -/
abbrev State.Inv (s : State) : Prop :=
  s.AccBelowBits ∧ s.IdleIsEmpty ∧ s.EncFrameOk ∧ s.DecFrameOk ∧ s.HaltVerdict

/-- Every bit that entered the frame is accounted for, modulo 2^32 as the counters are: in an encode frame 8 bits per
byte against k per symbol, in a decode frame k per data symbol against 8 per byte (41_encoder.md R124,
42_decoder.md R155). -/
abbrev State.Tally (s : State) : Prop :=
  (s.mode = .enc → (8 * s.incnt.toNat) % 2 ^ 32 = (s.k * s.outcnt.toNat + s.bits.toNat) % 2 ^ 32) ∧
  (s.mode = .dec ∨ s.mode = .halt →
    (s.k * s.datacnt.toNat) % 2 ^ 32 = (8 * s.outcnt.toNat + s.bits.toNat) % 2 ^ 32)

/-- While a frame is open it has no success verdict, and no error unless it has failed into HALT (10_state.md R35,
R38). -/
abbrev State.NoVerdictYet (s : State) : Prop :=
  (s.mode ≠ .idle → s.done = false) ∧ (s.mode = .enc ∨ s.mode = .dec → s.err = none)

/-- The low n bits of a value, the most significant first (20_memory.md R54). -/
def bitsOf (n v : Nat) : List Bool := (List.range n).map fun i => v.testBit (n - 1 - i)

/-- The value of bits, the most significant first (20_memory.md R54). -/
def valueOf (bits : List Bool) : Nat := bits.foldl (fun v b => 2 * v + b.toNat) 0

/-- The j-th group of n bits of a bit string, zero bits standing below its end (20_memory.md R54). -/
def bitGroup (n : Nat) (bits : List Bool) (j : Nat) : Nat :=
  valueOf ((List.range n).map fun i => bits.getD (n * j + i) false)

/-- The k-bit values of a byte sequence: ceil(8n / k) groups, the last one filled with zeros (41_encoder.md R120,
R124). -/
def groupValues (k : Nat) (bytes : List Byte) : List Nat :=
  (List.range ((8 * bytes.length + k - 1) / k)).map
    (bitGroup k (bytes.flatMap fun b => bitsOf 8 b.toNat))

/-- The pads after n data symbols (41_encoder.md R123). -/
def padsAfter (s : State) (n : Nat) : List Byte :=
  match s.rom.padSym s.cfg.alpha with
  | none => []
  | some p =>
    if s.cfg.padEn = true ∧ (s.k = 5 ∨ s.k = 6) then
      List.replicate ((symbolsPerBlock s.k - n % symbolsPerBlock s.k) % symbolsPerBlock s.k) p
    else []

/-- The whole encoding of a byte sequence under the configuration of s (41_encoder.md R120). -/
def encoding (s : State) (bytes : List Byte) : List Byte :=
  (groupValues s.k bytes).map s.symOut ++ padsAfter s (groupValues s.k bytes).length

/-- The bit string of data symbol values of width k (20_memory.md R54). -/
def symbolBits (k : Nat) (values : List Nat) : List Bool := values.flatMap (bitsOf k)

/-- The whole bytes of data symbol values of width k; bits left over make none (42_decoder.md R154). -/
def wholeBytes (k : Nat) (values : List Nat) : List Byte :=
  (List.range (values.length * k / 8)).map fun j => BitVec.ofNat 8 (bitGroup 8 (symbolBits k values) j)

/-- The bits left over after the whole bytes (42_decoder.md R151). -/
def leftoverBits (k : Nat) (values : List Nat) : List Bool :=
  (symbolBits k values).drop (8 * (values.length * k / 8))

/-- The length rule for a frame of the given data symbol values and pads (42_decoder.md R149 to R151). -/
def LengthValid (s : State) (values : List Nat) (pads : Nat) : Prop :=
  values.length * s.k % 8 < s.k ∧
  (pads = 0 ∨ pads =
    (symbolsPerBlock s.k - values.length % symbolsPerBlock s.k) % symbolsPerBlock s.k) ∧
  (s.cfg.strict = true → ∀ b ∈ leftoverBits s.k values, b = false)

/-- What the skip mask leaves of the characters (42_decoder.md R143). -/
def kept (s : State) (chars : List Byte) : List Byte := chars.filter fun c => !s.skips c

/-- The characters, less the skipped ones, are data symbols of the given values and then pads (42_decoder.md R145,
R146). -/
abbrev Suffixed (s : State) (chars : List Byte) (values : List Nat) (pads : Nat) : Prop :=
  (kept s chars).map s.classify = values.map SymbolClass.value ++ List.replicate pads .pad

end Sys2Proof.Machine
end

