-- ==== Sys2Proof/Certificates/Slice0/Obligations.lean ====
section
/-! DEFINITION. The statements for the provers, file by file of spec/. A docstring names the rule a statement formalises,
and says where a clause is the model's own convention. -/

open Sys2Proof Sys2Proof.Machine

/-! ### The machine's step and the commands' words (00_scope.md, 30_encoding.md) -/

/-- A step takes the first presented event: when it is a word that decodes to a command, the step is that command's
meaning on the state in which the word is taken (00_scope.md R6). That the presented words stand in a list of State is
the model's convention (log 1, log 2). -/
def Obligations.StepRunsTheDecodedCommand : Prop :=
  (∀ (s : State) (w : Word) (rest : List PortEvent) (i : Instr),
    s.input = .command w :: rest → decode w = .ok i → step s = exec i { s with input := rest }) ∧
  (∀ (s : State) (w : Nat) (i : Instr), w < 2 ^ 32 → decodeTableWord 32 w = some i →
    step (s.withFetchWord 32 w) = exec i s)

/-- Every event of the host has a next state, any 32-bit word included (70_reset_and_hazards.md R239). -/
def Obligations.EveryStepAnswersNext : Prop := ∀ s : State, ∃ t, step s = .next t

/-- An illegal word sets CMDERR to ILLEGAL unless an earlier error stands there, and does nothing else, whatever the mode
(R74); a word matching no row is illegal, so are OP 0xE and 0xF (R75), so is CFG_WR with ALPHA 6 or 7 (R76). The taking
of the word from the list of presented events is the model's convention (log 1). -/
def Obligations.IllegalWordOnlyRaisesIllegal : Prop :=
  (∀ w : Word, (∀ r ∈ opcodeRows, w &&& r.2 ≠ r.1) → RaisesIllegal w) ∧
  (∀ w : Word, 0xE ≤ w.toNat / 2 ^ 28 → RaisesIllegal w) ∧
  (∀ w : Word, w &&& 0xFFFFFFC0 = 0x10000000 → 6 ≤ w.toNat % 8 → RaisesIllegal w)

/-- Every word is one row's command, legal in value, or illegal, and at most one row matches it (30_encoding.md section 4,
the total decoder, which the spec marks as derived). -/
def Obligations.DecoderIsTotalAndUnambiguous : Prop :=
  ∀ w : Word,
    (∀ r ∈ opcodeRows, ∀ r' ∈ opcodeRows, w &&& r.2 = r.1 → w &&& r'.2 = r'.1 → r = r') ∧
    ((∃ i, decode w = .ok i) ↔
      (∃ r ∈ opcodeRows, w &&& r.2 = r.1) ∧ ¬(w &&& 0xFFFFFFC0 = 0x10000000 ∧ 6 ≤ w.toNat % 8))

/-- No operand bit is dropped: decoding the word of a well-formed command gives the command back. -/
def Obligations.DecodeOfEncodeIsTheCommand : Prop :=
  ∀ i : Instr, i.wellFormed = true → decode (encode i) = .ok i

/-- Each legal word has one meaning: a word that decodes is the encoding of the command it decodes to, and that command is
well formed. -/
def Obligations.EncodeOfDecodeIsTheWord : Prop :=
  ∀ (w : Word) (i : Instr), decode w = .ok i → i.wellFormed = true ∧ encode i = w

/-- Words written out from the layouts of 30_encoding.md decode to the commands they stand for. -/
def Obligations.WordsOfTheOpcodeMapDecode : Prop :=
  decode 0b00010000000000000000000000110010#32 = .ok (.cfgWr 2 false true true) ∧
  decode 0b00100000000000000000000100111111#32 = .ok (.skipSet 0x3F true) ∧
  decode 0b01010000000000000000000001100110#32 = .ok (.encByte 0x66) ∧
  decode 0b10000000000000000000000001011010#32 = .ok (.decSym 0x5A) ∧
  decode 0b11000000100000000000000000000001#32 = .ok (.sizeEnc 0x800001) ∧
  decode 0b11010000000000000000000000000100#32 = .ok (.sizeDec 4) ∧
  decode 0b10110000000000000000000000000000#32 = .ok .clrErr

/-- Presenting the words of well-formed commands and letting the machine run as many steps runs the commands one after
another, and leaves what was presented after them (20_memory.md R60; the list of presented events is the model's, log
1). -/
def Obligations.PresentedCommandsRunInOrder : Prop :=
  ∀ (is : List Instr) (s : State) (rest : List PortEvent), (∀ i ∈ is, i.wellFormed = true) →
    Host.Core.run Sys2Proof.core is.length { s with input := is.map (fun i => .command (encode i)) ++ rest } =
      runAll is { s with input := rest }

/-- Each of the five pseudo-instructions is its expansion, CFG for every alphabet and every choice of its options, and an
operand out of its range is refused, not truncated (30_encoding.md section 5; that the options of CFG stand in the
section's order is the model's choice, log 10). -/
def Obligations.AssemblerExpandsAndRefuses : Prop :=
  (∀ p ∈ [("base2", 0), ("base16", 1), ("base32", 2), ("base32hex", 3), ("base64", 4), ("base64url", 5)],
    ∀ lower nopad strict : Bool, statementWords "CFG" (.name p.1 ::
      ((if lower then [.name "lower"] else []) ++ (if nopad then [.name "nopad"] else []) ++
        (if strict then [.name "strict"] else []))) =
      .ok [BitVec.ofNat 32 (0x10000000 + (p.2 + (if lower then 0 else 1) * 2 ^ 3 + (if nopad then 0 else 1) * 2 ^ 4 +
        (if strict then 1 else 0) * 2 ^ 5))]) ∧
  (∀ bs : List Byte, statementWords "ENCODE" [.text bs] =
    .ok (0x40000000 :: bs.map (fun b => 0x50000000 ||| b.setWidth 32) ++ [0x60000000])) ∧
  (∀ cs : List Byte, statementWords "DECODE" [.text cs] =
    .ok (0x70000000 :: cs.map (fun c => 0x80000000 ||| c.setWidth 32) ++ [0x90000000])) ∧
  (∀ cs : List Byte, statementWords "SKIPS" [.text cs] = .ok (cs.map fun c => 0x20000100 ||| c.setWidth 32)) ∧
  (∀ c : Byte, statementWords "UNSKIP" [.number c.toNat] = .ok [0x20000000 ||| c.setWidth 32]) ∧
  (∀ n, 256 ≤ n → statementWords "CFG_WR" [.number n] = .error .outOfRange ∧
    statementWords "ENC_BYTE" [.number n] = .error .outOfRange ∧
    statementWords "DEC_SYM" [.number n] = .error .outOfRange ∧
    statementWords "UNSKIP" [.number n] = .error .outOfRange) ∧
  (∀ n, 2 ^ 24 ≤ n → statementWords "SIZE_ENC" [.number n] = .error .outOfRange ∧
    statementWords "SIZE_DEC" [.number n] = .error .outOfRange) ∧
  (∀ c v, 256 ≤ c ∨ 2 ≤ v → statementWords "SKIP_SET" [.number c, .number v] = .error .outOfRange)

/-! ### Errors and modes (60_exceptions.md) -/

/-- The mode legality table (R201): a command runs without a command error in its ok modes, DEC_SYM is dropped in HALT,
and in every other cell SEQUENCE is raised and nothing else happens. -/
def Obligations.ModeLegalityTable : Prop :=
  (∀ (i : Instr) (s : State), i.wellFormed = true → s.mode ∈ okModes i →
    ∃ t, exec i s = .next t ∧ (i ≠ .clrErr → t.cmdErr = s.cmdErr)) ∧
  (∀ (c : Byte) (s : State), s.mode = .halt → exec (.decSym c) s = .next s) ∧
  (∀ (i : Instr) (s : State), i.wellFormed = true → s.mode ∉ okModes i →
    (∀ c, i = .decSym c → s.mode ≠ .halt) → exec i s = .next (s.withCommandError .sequence))

/-- A command that changes CMDERR, and is not CLR_ERR, found CMDERR at NONE and changed nothing else: the first command
error wins and the offending command is discarded (R205; R37 for the clearing). -/
def Obligations.CommandErrorIsFirstAndAlone : Prop :=
  ∀ (s t : State) (w : Word) (rest : List PortEvent), s.input = .command w :: rest → step s = .next t →
    t.cmdErr = s.cmdErr ∨
    (w = 0xB0000000 ∧ t.cmdErr = none) ∨
    (s.cmdErr = none ∧ (t.cmdErr = some .illegal ∨ t.cmdErr = some .sequence) ∧
      t = { s with input := rest, cmdErr := t.cmdErr })

/-- A host may keep streaming characters into HALT: any number of DEC_SYM change nothing at all (section 2 of
60_exceptions.md, mode HALT). -/
def Obligations.HaltDropsEveryCharacter : Prop :=
  ∀ (cs : List Byte) (s : State), s.mode = .halt → runAll (cs.map .decSym) s = .next s

/-- HALT ends only by DEC_END, ABORT or reset, each of which leaves it for IDLE; DEC_END and ABORT keep the verdict; a
recorded command error is left only by CLR_ERR or reset, and CLR_ERR changes CMDERR alone, not MODE (R208). -/
def Obligations.HaltEndsOnlyByEndAbortOrReset : Prop :=
  (∀ (s t : State) (e : PortEvent) (rest : List PortEvent), s.mode = .halt → s.input = e :: rest →
    step s = .next t →
    (t.mode = .halt ∧ e ≠ .command 0x90000000 ∧ e ≠ .command 0xA0000000 ∧ e ≠ .reset ∧
      ∀ w, e ≠ .commandWithReset w) ∨
    (t.mode = .idle ∧
      ((e = .command 0x90000000 ∨ e = .command 0xA0000000) ∧ t.err = s.err ∧ t.errPos = s.errPos ∨
        e = .reset ∨ ∃ w, e = .commandWithReset w))) ∧
  (∀ (s t : State) (e : PortEvent) (rest : List PortEvent), s.cmdErr ≠ none → s.input = e :: rest →
    step s = .next t →
    (t.cmdErr = s.cmdErr ∧ e ≠ .command 0xB0000000 ∧ e ≠ .reset ∧ ∀ w, e ≠ .commandWithReset w) ∨
    (t.cmdErr = none ∧ (e = .command 0xB0000000 ∨ e = .reset ∨ ∃ w, e = .commandWithReset w))) ∧
  (∀ (s : State) (rest : List PortEvent), s.input = .command 0xB0000000 :: rest →
    step s = .next { s with input := rest, cmdErr := none })

/-- Only ENC_BEGIN, ENC_END, DEC_BEGIN, DEC_END, ABORT, a decode error and reset change MODE, each to the mode it leads
to (10_state.md section 4, MODE). -/
def Obligations.ModeChangesOnlyByFrameEvents : Prop :=
  ∀ (s t : State) (e : PortEvent) (rest : List PortEvent), s.input = e :: rest → step s = .next t →
    t.mode = s.mode ∨
    (e = .command 0x40000000 ∧ s.mode = .idle ∧ t.mode = .enc) ∨
    (e = .command 0x60000000 ∧ s.mode = .enc ∧ t.mode = .idle) ∨
    (e = .command 0x70000000 ∧ s.mode = .idle ∧ t.mode = .dec) ∨
    (e = .command 0x90000000 ∧ (s.mode = .dec ∨ s.mode = .halt) ∧ t.mode = .idle) ∨
    (e = .command 0xA0000000 ∧ t.mode = .idle) ∨
    ((∃ c, e = .command (encode (.decSym c))) ∧ s.mode = .dec ∧ t.mode = .halt ∧ t.err = some .invalidChar) ∨
    ((e = .reset ∨ ∃ w, e = .commandWithReset w) ∧ t.mode = .idle)

/-- CFG is written only by CFG_WR and SKIP only by SKIP_SET and SKIP_CLR, in IDLE; inside a frame no command changes
either (10_state.md sections 3 and 6; 70_reset_and_hazards.md section 3, the configuration hazard). -/
def Obligations.ConfigurationIsFixedInsideAFrame : Prop :=
  ∀ (s t : State) (i : Instr), exec i s = .next t →
    (t.cfg ≠ s.cfg → s.mode = .idle ∧ ∃ a u p x, i = .cfgWr a u p x) ∧
    (t.skip ≠ s.skip → s.mode = .idle ∧ (i = .skipClr ∨ ∃ c v, i = .skipSet c v)) ∧
    (s.mode ≠ .idle → t.cfg = s.cfg ∧ t.skip = s.skip)

/-- Who writes the verdict, the result and the counters: SIZE only the size commands, DONE only the END and BEGIN
commands, ERR and ERR_POS only DEC_SYM, DEC_END and the BEGIN commands (10_state.md sections 5 and 6). -/
def Obligations.StatusRegistersHaveTheirWritersOnly : Prop :=
  ∀ (s t : State) (i : Instr), exec i s = .next t →
    (t.size ≠ s.size → ∃ n, i = .sizeEnc n ∨ i = .sizeDec n) ∧
    (t.done ≠ s.done → t.done = true ∧ (i = .encEnd ∨ i = .decEnd) ∧ t.err = s.err ∨
      t.done = false ∧ (i = .encBegin ∨ i = .decBegin)) ∧
    ((t.err ≠ s.err ∨ t.errPos ≠ s.errPos) → i = .encBegin ∨ i = .decBegin ∨
      (i = .decEnd ∧ s.mode = .dec ∧ t.err = some .invalidLength) ∨
      ((∃ c, i = .decSym c) ∧ s.mode = .dec ∧ t.err = some .invalidChar)) ∧
    (t.incnt ≠ s.incnt → i = .encBegin ∨ i = .decBegin ∨ (∃ b, i = .encByte b) ∨ ∃ c, i = .decSym c) ∧
    (t.datacnt ≠ s.datacnt ∨ t.padcnt ≠ s.padcnt → i = .encBegin ∨ i = .decBegin ∨ ∃ c, i = .decSym c)

/-- OUT is append-only, under every event, reset included; only ENC_BYTE, ENC_END and DEC_SYM append to it, and every
appended item is counted or cleared by the event; no event writes the ROM (10_state.md section 7; 20_memory.md section
4). -/
def Obligations.OutIsAppendOnly : Prop :=
  (∀ s t : State, step s = .next t → (∃ items, t.out = s.out ++ items) ∧ t.rom = s.rom) ∧
  (∀ (s t : State) (i : Instr), exec i s = .next t → t.out ≠ s.out →
    i = .encEnd ∨ (∃ b, i = .encByte b) ∨ ∃ c, i = .decSym c) ∧
  (∀ (s t : State) (i : Instr) (items : List Byte), exec i s = .next t → t.out = s.out ++ items → items ≠ [] →
    t.outcnt = s.outcnt + BitVec.ofNat 32 items.length)

/-- What one command can emit: ENC_BYTE 8 symbols for k = 1, 2 for k = 4, 1 or 2 otherwise; ENC_END at most 7 items,
and at most 3 for k = 6; DEC_SYM at most 1; the states are those the invariants admit (70_reset_and_hazards.md section
3, the output hazard, which the spec marks as derived). -/
def Obligations.OneCommandEmitsAtMostEight : Prop :=
  ∀ (s t : State) (i : Instr), s.Inv → s.Tally → exec i s = .next t → ∃ items, t.out = s.out ++ items ∧
    items.length ≤ 8 ∧
    (i = .encEnd → items.length ≤ 7 ∧ (s.k = 6 → items.length ≤ 3) ∧ (s.k = 1 ∨ s.k = 4 → items = [])) ∧
    (∀ b, i = .encByte b → s.mode = .enc →
      (s.k = 1 → items.length = 8) ∧ (s.k = 4 → items.length = 2) ∧
      (s.k = 5 ∨ s.k = 6 → items.length = 1 ∨ items.length = 2)) ∧
    (∀ c, i = .decSym c → items.length ≤ 1)

/-! ### The state (10_state.md) and the read port (20_memory.md) -/

/-- STATUS = MODE | ERR << 2 | CMDERR << 4 | DONE << 6 | K << 8, and 0x600 at reset (R41). -/
def Obligations.StatusWordHasItsFields : Prop :=
  (∀ s : State, (readPort s 0x01).toNat =
    (match s.mode with | .idle => 0 | .enc => 1 | .dec => 2 | .halt => 3) +
    4 * (match s.err with | none => 0 | some .invalidChar => 1 | some .invalidLength => 2) +
    16 * (match s.cmdErr with | none => 0 | some .illegal => 1 | some .sequence => 2) +
    64 * s.done.toNat +
    256 * (match s.cfg.alpha with
      | .base2 => 1 | .base16 => 4 | .base32 => 5 | .base32hex => 5 | .base64 => 6 | .base64url => 6)) ∧
  readPort State.reset 0x01 = 0x00000600

/-- The register read map (R51), and 0 at every other address (R52). -/
def Obligations.ReadPortMap : Prop :=
  ∀ s : State,
    (readPort s 0x00).toNat =
      (match s.cfg.alpha with
        | .base2 => 0 | .base16 => 1 | .base32 => 2 | .base32hex => 3 | .base64 => 4 | .base64url => 5) +
      8 * s.cfg.ucase.toNat + 16 * s.cfg.padEn.toNat + 32 * s.cfg.strict.toNat ∧
    readPort s 0x01 = s.status ∧ readPort s 0x02 = s.acc ∧ readPort s 0x03 = s.bits ∧ readPort s 0x04 = s.incnt ∧
    readPort s 0x05 = s.datacnt ∧ readPort s 0x06 = s.padcnt ∧ readPort s 0x07 = s.outcnt ∧ readPort s 0x08 = s.errPos ∧
    readPort s 0x09 = s.size ∧
    (∀ i j : Nat, i < 8 → j < 32 →
      (readPort s (BitVec.ofNat 8 (0x10 + i))).getLsbD j = s.skip.getLsbD (32 * i + j)) ∧
    (∀ a : BitVec 8, 0x0A ≤ a.toNat ∧ a.toNat ≤ 0x0F ∨ 0x18 ≤ a.toNat → readPort s a = 0)

/-- In every state CFG reads an ALPHA of at most 5 and zero reserved bits, and ERR and CMDERR read no 3 (10_state.md
section 9, items 5 and 6 of the invariants, which the spec marks as derived). -/
def Obligations.ReservedCodesNeverRead : Prop :=
  ∀ s : State, (readPort s 0x00).toNat % 8 ≤ 5 ∧ (readPort s 0x00).toNat < 64 ∧
    (readPort s 0x01).toNat / 4 % 4 ≠ 3 ∧ (readPort s 0x01).toNat / 16 % 4 ≠ 3

/-- The state right after reset meets the invariants. -/
def Obligations.ResetStateMeetsTheInvariants : Prop :=
  State.reset.Inv ∧ State.reset.Tally ∧ State.reset.NoVerdictYet

/-- Every step keeps the invariants of 10_state.md section 9 (which the spec marks as derived), whatever event the host
presents, from every state that meets them. -/
def Obligations.StepKeepsTheInvariants : Prop := ∀ s t : State, s.Inv → step s = .next t → t.Inv

/-- Every step keeps the account of the frame's bits, modulo 2^32, from every state that meets it and the invariants
(41_encoder.md R124 and 42_decoder.md R155 state it without wrapping, and mark it as derived). -/
def Obligations.StepKeepsTheTally : Prop :=
  ∀ s t : State, s.Inv → s.Tally → step s = .next t → t.Tally

/-- Every step keeps that an open frame has no verdict yet. -/
def Obligations.StepKeepsNoVerdictYet : Prop := ∀ s t : State, s.NoVerdictYet → step s = .next t → t.NoVerdictYet

/-! ### Reset (70_reset_and_hazards.md) -/

/-- The reset event sets every register to its reset value in every mode, emits nothing, raises no error and leaves OUT
and the ROM (R46, R230). The list of presented events is the model's (log 1). -/
def Obligations.ResetEventSetsEveryRegister : Prop :=
  (∀ (s : State) (rest : List PortEvent), s.input = .reset :: rest →
    step s = .next
      { cfg := ⟨.base64, true, true, false⟩, mode := .idle, acc := 0, bits := 0, incnt := 0, datacnt := 0,
        padcnt := 0, outcnt := 0, err := none, errPos := 0, cmdErr := none, done := false, size := 0, skip := 0,
        out := s.out, rom := s.rom, input := rest }) ∧
  cfgByte ⟨.base64, true, true, false⟩ = 0x1C

/-- A command presented together with the reset is discarded: the step is the reset's (R231). -/
def Obligations.ResetWinsOverACommand : Prop :=
  ∀ (s : State) (w : Word) (rest : List PortEvent), s.input = .commandWithReset w :: rest →
    step s = step { s with input := .reset :: rest }

/-- After a reset event, in any state before it, the read port shows 0x1C at CFG, 0x600 at STATUS and 0 at every other
address (10_state.md section 9; 20_memory.md section 1). -/
def Obligations.ReadsAfterAReset : Prop :=
  ∀ (s t : State) (rest : List PortEvent) (a : BitVec 8), s.input = .reset :: rest → step s = .next t →
    readPort t a = if a = 0x00 then 0x1C else if a = 0x01 then 0x600 else 0

/-! ### The control commands (43_control.md) -/

/-- NOP does nothing, in any mode; a NOP word with a reserved bit set is ILLEGAL (R170). -/
def Obligations.NopDoesNothing : Prop :=
  decode 0x00000000 = .ok .nop ∧ (∀ s : State, exec .nop s = .next s) ∧
  (∀ w : Word, w.toNat / 2 ^ 28 = 0x0 → w ≠ 0x00000000 → RaisesIllegal w) ∧
  (∃ t, runAll [.nop] State.reset = .next t ∧ readPort t 0x01 = 0x00000600)

/-- CFG_WR writes CFG in IDLE and nothing else, for every legal value; ALPHA 6 and 7 and every reserved bit are ILLEGAL;
outside IDLE it is SEQUENCE; 0x1A from reset gives CFG 0x1A and STATUS 0x500 (R171). -/
def Obligations.CfgWrWritesTheConfiguration : Prop :=
  (∀ (a : Alphabet) (u p x : Bool),
    decode (0x10000000 ||| (cfgByte ⟨a, u, p, x⟩).setWidth 32) = .ok (.cfgWr (alphabetCode a) u p x)) ∧
  (∀ (a : Alphabet) (u p x : Bool) (s : State), s.mode = .idle →
    exec (.cfgWr (alphabetCode a) u p x) s = .next { s with cfg := ⟨a, u, p, x⟩ }) ∧
  (∀ (a : Alphabet) (u p x : Bool) (s : State), s.mode ≠ .idle →
    exec (.cfgWr (alphabetCode a) u p x) s = .next (s.withCommandError .sequence)) ∧
  (∀ w : Word, w.toNat / 2 ^ 28 = 0x1 → 64 ≤ w.toNat % 2 ^ 28 ∨ 6 ≤ w.toNat % 8 → RaisesIllegal w) ∧
  (∃ t, runAll [.cfgWr 2 true true false] State.reset = .next t ∧ readPort t 0x00 = 0x1A ∧ readPort t 0x01 = 0x00000500)

/-- SKIP_SET writes one bit of the skip mask in IDLE and nothing else; reserved bits are ILLEGAL; outside IDLE it is
SEQUENCE; SKIP_SET '?', 1 from reset makes SKIP word 1 read 0x80000000 (R172). -/
def Obligations.SkipSetWritesOneBit : Prop :=
  (∀ (c : Byte) (v : Bool),
    decode (0x20000000 ||| (if v then 0x100 else 0) ||| c.setWidth 32) = .ok (.skipSet c v)) ∧
  (∀ (c : Byte) (v : Bool) (s : State), s.mode = .idle → ∃ m, exec (.skipSet c v) s = .next { s with skip := m } ∧
    ∀ d : Byte, m.getLsbD d.toNat = if d = c then v else s.skip.getLsbD d.toNat) ∧
  (∀ (c : Byte) (v : Bool) (s : State), s.mode ≠ .idle →
    exec (.skipSet c v) s = .next (s.withCommandError .sequence)) ∧
  (∀ w : Word, w.toNat / 2 ^ 28 = 0x2 → 512 ≤ w.toNat % 2 ^ 28 → RaisesIllegal w) ∧
  (∃ t, runAll [.skipSet 0x3F true] State.reset = .next t ∧ readPort t 0x11 = 0x80000000)

/-- SKIP_CLR clears the whole skip mask in IDLE and nothing else; reserved bits are ILLEGAL; outside IDLE it is SEQUENCE;
after SKIP_SET '?', 1 it makes address 0x11 read 0 (R173). -/
def Obligations.SkipClrClearsTheMask : Prop :=
  decode 0x30000000 = .ok .skipClr ∧
  (∀ s : State, s.mode = .idle → exec .skipClr s = .next { s with skip := 0 }) ∧
  (∀ s : State, s.mode ≠ .idle → exec .skipClr s = .next (s.withCommandError .sequence)) ∧
  (∀ w : Word, w.toNat / 2 ^ 28 = 0x3 → w ≠ 0x30000000 → RaisesIllegal w) ∧
  (∃ t, runAll [.skipSet 0x3F true, .skipClr] State.reset = .next t ∧ readPort t 0x11 = 0)

/-- ABORT clears the datapath and goes to IDLE, from every mode; everything else, OUT and the verdict included, stays; in
IDLE it changes nothing; reserved bits are ILLEGAL; ENC_BEGIN, ENC_BYTE 0x66, ABORT leaves OUT with the one item Z (R174).
-/
def Obligations.AbortClosesAnyFrame : Prop :=
  decode 0xA0000000 = .ok .abort ∧
  (∀ s : State, exec .abort s = .next { s with acc := 0, bits := 0, mode := .idle }) ∧
  (∀ s : State, s.Inv → s.mode = .idle → exec .abort s = .next s) ∧
  (∀ w : Word, w.toNat / 2 ^ 28 = 0xA → w ≠ 0xA0000000 → RaisesIllegal w) ∧
  (∃ t, runAll [.encBegin, .encByte 0x66, .abort] State.reset = .next t ∧ t.out = [0x5A] ∧ t.mode = .idle ∧
    t.done = false ∧ t.outcnt = 1)

/-- CLR_ERR clears CMDERR and nothing else, in any mode; an illegal CLR_ERR word clears nothing; the worked example of the
rule (R175). -/
def Obligations.ClrErrClearsTheCommandError : Prop :=
  decode 0xB0000000 = .ok .clrErr ∧
  (∀ s : State, exec .clrErr s = .next { s with cmdErr := none }) ∧
  (∀ w : Word, w.toNat / 2 ^ 28 = 0xB → w ≠ 0xB0000000 → RaisesIllegal w) ∧
  (∃ t, runAll [.encByte 0x66] State.reset = .next t ∧ readPort t 0x01 = 0x00000620) ∧
  (∃ t, runAll [.encByte 0x66, .clrErr] State.reset = .next t ∧ readPort t 0x01 = 0x00000600)

/-! ### The alphabet ROM (40_alphabet.md) -/

/-- The model takes exactly the ROM data that the five conditions of R102 admit, for every alphabet. -/
def Obligations.RomIsTakenExactlyWhenWellFormed : Prop :=
  ∀ d : RomData, (AlphabetRom.ofData d).isSome = true ↔ ∀ a : Alphabet,
    ((d.entry a).up.length = 2 ^ widthOf a ∧ widthOf a ∈ Config.kSet) ∧
    (d.entry a).up.Nodup ∧
    (∀ low, (d.entry a).low = some low → low.length = (d.entry a).up.length ∧ low.Nodup ∧
      ∀ v w : Nat, v < low.length → v ≠ w → low[v]? ≠ (d.entry a).up[w]?) ∧
    (∀ p, (d.entry a).pad = some p → p ∉ (d.entry a).up ∧ ∀ low, (d.entry a).low = some low → p ∉ low) ∧
    (widthOf a = 1 ∨ widthOf a = 4 → (d.entry a).pad = none)

/-- Rlut classifies every byte into exactly one class, and by the forward tables alone: VALUE v for the symbol of v in
either case, PAD for the pad symbol, INVALID otherwise, for every ROM that R102 admits (R112, R113). -/
def Obligations.RlutInvertsTheForwardTables : Prop :=
  ∀ (r : AlphabetRom) (a : Alphabet) (c : Byte),
    (∀ v, r.rlut a c = .value v ↔
      v < 2 ^ widthOf a ∧ (r.fwd a true v = c ∨ (r.fold a = true ∧ r.fwd a false v = c))) ∧
    (r.rlut a c = .pad ↔ r.padSym a = some c) ∧
    (r.rlut a c = .invalid ↔ r.padSym a ≠ some c ∧
      ∀ v, v < 2 ^ widthOf a → r.fwd a true v ≠ c ∧ (r.fold a = true → r.fwd a false v ≠ c))

/-- The symbol strings of the six default alphabets, in value order (40_alphabet.md section 2, tables which the spec itself
takes from general knowledge; log 3). -/
def Obligations.DefaultAlphabetSymbols : Prop :=
  ((List.range 2).map fun v => Char.ofNat (defaultRom.fwd .base2 true v).toNat) = "01".toList ∧
  ((List.range 16).map fun v => Char.ofNat (defaultRom.fwd .base16 true v).toNat) = "0123456789ABCDEF".toList ∧
  ((List.range 32).map fun v => Char.ofNat (defaultRom.fwd .base32 true v).toNat) =
    "ABCDEFGHIJKLMNOPQRSTUVWXYZ234567".toList ∧
  ((List.range 32).map fun v => Char.ofNat (defaultRom.fwd .base32hex true v).toNat) =
    "0123456789ABCDEFGHIJKLMNOPQRSTUV".toList ∧
  ((List.range 64).map fun v => Char.ofNat (defaultRom.fwd .base64 true v).toNat) =
    "ABCDEFGHIJKLMNOPQRSTUVWXYZabcdefghijklmnopqrstuvwxyz0123456789+/".toList ∧
  ((List.range 64).map fun v => Char.ofNat (defaultRom.fwd .base64url true v).toNat) =
    "ABCDEFGHIJKLMNOPQRSTUVWXYZabcdefghijklmnopqrstuvwxyz0123456789-_".toList

/-- The lower-case variants, the fold property and the pad symbols of the default ROM; and, for every ROM, an alphabet
without case variants encodes alike in both cases (40_alphabet.md section 2; the offset 0x20 and two of the pads the spec
itself takes from general knowledge; log 3). -/
def Obligations.DefaultCaseVariantsAndPads : Prop :=
  (∀ a : Alphabet, ∀ v < 2 ^ widthOf a, defaultRom.fold a = true → defaultRom.fwd a false v =
    if 0x41 ≤ (defaultRom.fwd a true v).toNat ∧ (defaultRom.fwd a true v).toNat ≤ 0x5A
      then defaultRom.fwd a true v + 0x20 else defaultRom.fwd a true v) ∧
  (∀ (r : AlphabetRom) (a : Alphabet) (v : Nat), r.fold a = false → r.fwd a false v = r.fwd a true v) ∧
  (∀ a : Alphabet, defaultRom.fold a = true ↔ a = .base16 ∨ a = .base32 ∨ a = .base32hex) ∧
  (∀ a : Alphabet, defaultRom.padSym a = if a = .base2 ∨ a = .base16 then none else some 0x3D)

/-! ### The encoder (41_encoder.md) -/

/-- ENC_BEGIN opens an encode frame in IDLE, clearing exactly the datapath, the counters and the old verdict; elsewhere it
is SEQUENCE; from reset it gives STATUS 0x601 (R121). -/
def Obligations.EncBeginOpensAnEncodeFrame : Prop :=
  decode 0x40000000 = .ok .encBegin ∧
  (∀ s : State, s.mode = .idle → exec .encBegin s = .next
    { s with acc := 0, bits := 0, incnt := 0, datacnt := 0, padcnt := 0, outcnt := 0, err := none, errPos := 0,
             done := false, mode := .enc }) ∧
  (∀ s : State, s.mode ≠ .idle → exec .encBegin s = .next (s.withCommandError .sequence)) ∧
  (∃ t, runAll [.encBegin] State.reset = .next t ∧ t.mode = .enc ∧ readPort t 0x01 = 0x00000601)

/-- ENC_BYTE in ENC takes every whole k-bit group from the top of the held bits and the byte below them: the emitted
symbols, their number floor((BITS + 8) / k), and all of the state after it; elsewhere it is SEQUENCE; the worked example of
the rule (R122). -/
def Obligations.EncByteEmitsWholeGroups : Prop :=
  (∀ b : Byte, decode (0x50000000 ||| b.setWidth 32) = .ok (.encByte b)) ∧
  (∀ (s : State) (b : Byte), s.mode = .enc → exec (.encByte b) s = .next
    { s with
      acc := BitVec.ofNat 32 ((s.acc.toNat * 256 + b.toNat) % 2 ^ ((s.bits.toNat + 8) % s.k))
      bits := BitVec.ofNat 32 ((s.bits.toNat + 8) % s.k)
      incnt := s.incnt + 1
      outcnt := s.outcnt + BitVec.ofNat 32 ((s.bits.toNat + 8) / s.k)
      out := s.out ++ (List.range ((s.bits.toNat + 8) / s.k)).map fun j =>
        s.rom.fwd s.cfg.alpha s.cfg.ucase
          ((s.acc.toNat * 256 + b.toNat) / 2 ^ (s.bits.toNat + 8 - (j + 1) * s.k) % 2 ^ s.k) }) ∧
  (∀ (s : State) (b : Byte), s.mode ≠ .enc → exec (.encByte b) s = .next (s.withCommandError .sequence)) ∧
  (∃ t, runAll [.encBegin, .encByte 0x66] State.reset = .next t ∧ t.out = [0x5A] ∧ t.acc = 2 ∧ t.bits = 2)

/-- ENC_END in ENC emits the final partial group, its residual bits at the top and zeros below, then pads until OUTCNT is a
multiple of SPB(k) when padding applies, and closes the frame with DONE; elsewhere it is SEQUENCE; the worked example of the
rule (R123). -/
def Obligations.EncEndFlushesAndPads : Prop :=
  decode 0x60000000 = .ok .encEnd ∧
  (∀ s : State, s.mode = .enc → ∃ sym pads : List Byte,
    exec .encEnd s = .next
      { s with acc := 0, bits := 0, done := true, mode := .idle
               outcnt := s.outcnt + BitVec.ofNat 32 (sym.length + pads.length)
               out := s.out ++ sym ++ pads } ∧
    sym = (if 0 < s.bits.toNat then
      [s.rom.fwd s.cfg.alpha s.cfg.ucase (s.acc.toNat * 2 ^ (s.k - s.bits.toNat) % 2 ^ s.k)] else []) ∧
    (∀ p, s.cfg.padEn = true → s.k = 5 ∨ s.k = 6 → s.rom.padSym s.cfg.alpha = some p →
      (∀ x ∈ pads, x = p) ∧ pads.length < 8 / Nat.gcd 8 s.k ∧
      (s.outcnt.toNat + sym.length + pads.length) % (8 / Nat.gcd 8 s.k) = 0) ∧
    (s.cfg.padEn = false ∨ (s.k ≠ 5 ∧ s.k ≠ 6) ∨ s.rom.padSym s.cfg.alpha = none → pads = [])) ∧
  (∀ s : State, s.mode ≠ .enc → exec .encEnd s = .next (s.withCommandError .sequence)) ∧
  (∃ t, runAll [.encBegin, .encByte 0x66, .encEnd] State.reset = .next t ∧ t.out = [0x5A, 0x67, 0x3D, 0x3D] ∧
    t.outcnt = 4)

/-- An encode frame appends to OUT the encoding of its bytes as one bit string: cut into k-bit groups from the most
significant bit, the last group filled with zeros below, each group mapped by the alphabet, then the pads; for every byte
sequence, configuration and ROM (20_memory.md section 2, 41_encoder.md; R54 and R120 are formalised by the reference
function of Safety.lean). -/
def Obligations.EncodeFrameIsTheBitStringEncoding : Prop :=
  ∀ (s : State) (bs : List Byte), s.mode = .idle → ∃ t, runAll (encodeFrame bs) s = .next t ∧
    t.out = s.out ++ encoding s bs ∧ t.mode = .idle ∧ t.done = true ∧ t.err = none ∧
    t.incnt = BitVec.ofNat 32 bs.length ∧ t.cfg = s.cfg ∧ t.skip = s.skip ∧ t.rom = s.rom ∧ t.cmdErr = s.cmdErr

/-- What an encode frame appends depends on its bytes, CFG and the ROM alone: not on SKIP, earlier frames, pending
command errors or OUT (41_encoder.md, determinism, which the spec marks as derived). -/
def Obligations.EncodeFrameDependsOnBytesAndCfgAlone : Prop :=
  ∀ (bs : List Byte) (s s' : State), s.mode = .idle → s'.mode = .idle → s'.cfg = s.cfg → s'.rom = s.rom →
    ∃ items t t', runAll (encodeFrame bs) s = .next t ∧ runAll (encodeFrame bs) s' = .next t' ∧
      t.out = s.out ++ items ∧ t'.out = s'.out ++ items

/-- How many items an encode frame of n bytes appends: ceil(8n / k) without padding, ceil(n / BPB) * SPB with it, and never
more than SIZE_ENC's value (41_encoder.md, the output bound, which the spec marks as derived; its padded count needs an
alphabet with a pad symbol). -/
def Obligations.EncodeFrameLengthIsTheSizeBound : Prop :=
  ∀ (s : State) (bs : List Byte), s.mode = .idle → ∃ t items, runAll (encodeFrame bs) s = .next t ∧
    t.out = s.out ++ items ∧ items.length ≤ maxEncodeSize s.k bs.length ∧
    (s.cfg.padEn = false ∨ s.k = 1 ∨ s.k = 4 → items.length = (8 * bs.length + s.k - 1) / s.k) ∧
    (s.cfg.padEn = true → s.k = 5 ∨ s.k = 6 → s.rom.padSym s.cfg.alpha ≠ none →
      items.length = (bs.length + s.k / Nat.gcd 8 s.k - 1) / (s.k / Nat.gcd 8 s.k) * (8 / Nat.gcd 8 s.k))

/-! ### The decoder (42_decoder.md) -/

/-- DEC_BEGIN opens a decode frame in IDLE, clearing exactly the datapath, the counters and the old verdict; elsewhere it
is SEQUENCE; from reset it gives STATUS 0x602 (R141). -/
def Obligations.DecBeginOpensADecodeFrame : Prop :=
  decode 0x70000000 = .ok .decBegin ∧
  (∀ s : State, s.mode = .idle → exec .decBegin s = .next
    { s with acc := 0, bits := 0, incnt := 0, datacnt := 0, padcnt := 0, outcnt := 0, err := none, errPos := 0,
             done := false, mode := .dec }) ∧
  (∀ s : State, s.mode ≠ .idle → exec .decBegin s = .next (s.withCommandError .sequence)) ∧
  (∃ t, runAll [.decBegin] State.reset = .next t ∧ readPort t 0x01 = 0x00000602)

/-- DEC_SYM, all of its rule (R142): the skip test first (R143); an INVALID class (R144) or a data symbol after a pad (R146)
is INVALID_CHAR at the character's position and enters HALT with nothing else written but INCNT; a pad is counted,
saturating; a data symbol enters below the held bits and the top 8 of 8 or more bits leave as a byte; HALT drops it, IDLE
and ENC answer SEQUENCE; the worked example. -/
def Obligations.DecSymTakesOneCharacter : Prop :=
  (∀ c : Byte, decode (0x80000000 ||| c.setWidth 32) = .ok (.decSym c)) ∧
  (∀ (s : State) (c : Byte), s.mode = .dec →
    (s.skip.getLsbD c.toNat = true → exec (.decSym c) s = .next { s with incnt := s.incnt + 1 }) ∧
    (s.skip.getLsbD c.toNat = false → s.rom.rlut s.cfg.alpha c = .invalid →
      exec (.decSym c) s = .next
        { s with incnt := s.incnt + 1, err := some .invalidChar, errPos := s.incnt, mode := .halt }) ∧
    (s.skip.getLsbD c.toNat = false → s.rom.rlut s.cfg.alpha c = .pad →
      exec (.decSym c) s = .next
        { s with incnt := s.incnt + 1, padcnt := BitVec.ofNat 32 (min (s.padcnt.toNat + 1) (2 ^ 32 - 1)) }) ∧
    (∀ v, s.skip.getLsbD c.toNat = false → s.rom.rlut s.cfg.alpha c = .value v → 0 < s.padcnt.toNat →
      exec (.decSym c) s = .next
        { s with incnt := s.incnt + 1, err := some .invalidChar, errPos := s.incnt, mode := .halt }) ∧
    (∀ v, s.skip.getLsbD c.toNat = false → s.rom.rlut s.cfg.alpha c = .value v → s.padcnt.toNat = 0 →
      s.bits.toNat + s.k < 8 → exec (.decSym c) s = .next
        { s with
          incnt := s.incnt + 1
          datacnt := s.datacnt + 1
          acc := BitVec.ofNat 32 ((s.acc.toNat * 2 ^ s.k + v) % 2 ^ (s.bits.toNat + s.k))
          bits := BitVec.ofNat 32 (s.bits.toNat + s.k) }) ∧
    (∀ v, s.skip.getLsbD c.toNat = false → s.rom.rlut s.cfg.alpha c = .value v → s.padcnt.toNat = 0 →
      8 ≤ s.bits.toNat + s.k → exec (.decSym c) s = .next
        { s with
          incnt := s.incnt + 1
          datacnt := s.datacnt + 1
          outcnt := s.outcnt + 1
          out := s.out ++ [BitVec.ofNat 8 ((s.acc.toNat * 2 ^ s.k + v) / 2 ^ (s.bits.toNat + s.k - 8))]
          acc := BitVec.ofNat 32 ((s.acc.toNat * 2 ^ s.k + v) % 2 ^ (s.bits.toNat + s.k - 8))
          bits := BitVec.ofNat 32 (s.bits.toNat + s.k - 8) })) ∧
  (∀ (s : State) (c : Byte), s.mode = .halt → exec (.decSym c) s = .next s) ∧
  (∀ (s : State) (c : Byte), s.mode = .idle ∨ s.mode = .enc →
    exec (.decSym c) s = .next (s.withCommandError .sequence)) ∧
  (∃ t, runAll [.decBegin, .decSym 0x5A, .decSym 0x67] State.reset = .next t ∧ t.out = [0x66] ∧ t.acc = 0 ∧
    t.bits = 4 ∧ t.datacnt = 2)

/-- INVALID_CHAR has exactly its two causes: in DEC, DEC_SYM raises it when and only when the character is not skipped and
is INVALID or a data symbol after a pad; it records INCNT, which in DEC is the number of characters the frame consumed
before this one, skipped ones included, modulo 2^32 (R202). -/
def Obligations.InvalidCharHasExactlyTwoCauses : Prop :=
  (∀ (s : State) (c : Byte), s.mode = .dec → ∃ t, exec (.decSym c) s = .next t ∧
    (t.mode = .halt ↔ s.skip.getLsbD c.toNat = false ∧ (s.rom.rlut s.cfg.alpha c = .invalid ∨
      0 < s.padcnt.toNat ∧ ∃ v, s.rom.rlut s.cfg.alpha c = .value v)) ∧
    (t.mode = .halt → t.err = some .invalidChar ∧ t.errPos = s.incnt) ∧
    (t.mode ≠ .halt → t.err = s.err ∧ t.errPos = s.errPos)) ∧
  (∀ (s t : State) (cs : List Byte), s.mode = .idle → runAll (.decBegin :: cs.map .decSym) s = .next t →
    t.mode = .dec → t.incnt = BitVec.ofNat 32 cs.length)

/-- DEC_END, all of its rule (R148): in DEC the three length checks decide between DONE and INVALID_LENGTH at INCNT, in HALT
there is none; the frame closes into IDLE either way, OUT is not written; IDLE and ENC answer SEQUENCE; the worked example.
-/
def Obligations.DecEndValidatesAndCloses : Prop :=
  decode 0x90000000 = .ok .decEnd ∧
  (∀ s : State, s.mode = .dec →
    s.bits.toNat < s.k →
    (s.padcnt.toNat = 0 ∨ s.padcnt.toNat =
      (8 / Nat.gcd 8 s.k - s.datacnt.toNat % (8 / Nat.gcd 8 s.k)) % (8 / Nat.gcd 8 s.k)) →
    (s.cfg.strict = true → s.acc = 0) →
    exec .decEnd s = .next { s with done := true, acc := 0, bits := 0, mode := .idle }) ∧
  (∀ s : State, s.mode = .dec →
    s.k ≤ s.bits.toNat ∨
    (s.padcnt.toNat ≠ 0 ∧ s.padcnt.toNat ≠
      (8 / Nat.gcd 8 s.k - s.datacnt.toNat % (8 / Nat.gcd 8 s.k)) % (8 / Nat.gcd 8 s.k)) ∨
    (s.cfg.strict = true ∧ s.acc ≠ 0) →
    exec .decEnd s = .next
      { s with err := some .invalidLength, errPos := s.incnt, acc := 0, bits := 0, mode := .idle }) ∧
  (∀ s : State, s.mode = .halt → exec .decEnd s = .next { s with acc := 0, bits := 0, mode := .idle }) ∧
  (∀ s : State, s.mode = .idle ∨ s.mode = .enc → exec .decEnd s = .next (s.withCommandError .sequence)) ∧
  (∃ t, runAll [.decBegin, .decSym 0x41, .decEnd] State.reset = .next t ∧ t.err = some .invalidLength ∧ t.errPos = 1 ∧
    t.mode = .idle ∧ readPort t 0x01 = 0x00000608)

/-- A saturated PADCNT stays saturated and never passes the padding check, so a flood of pads cannot read as a valid frame
(10_state.md section 5; 70_reset_and_hazards.md section 3, long frames). -/
def Obligations.SaturatedPadCountNeverPasses : Prop :=
  ∀ s : State, s.mode = .dec → s.padcnt = BitVec.allOnes 32 →
    (∀ c t, exec (.decSym c) s = .next t → t.padcnt = BitVec.allOnes 32) ∧
    ∃ t, exec .decEnd s = .next t ∧ t.err = some .invalidLength ∧ t.done = s.done

/-- The residue table: which symbol counts leave fewer bits than one symbol, for each width, and the pads they call for
(42_decoder.md section 2, the residue table, which the spec marks as derived). -/
def Obligations.LegalResiduesByWidth : Prop :=
  (∀ d, d * 1 % 8 < 1 ↔ d % symbolsPerBlock 1 = 0) ∧
  (∀ d, d * 4 % 8 < 4 ↔ d % symbolsPerBlock 4 = 0) ∧
  (∀ d, d * 5 % 8 < 5 ↔ d % symbolsPerBlock 5 ∈ [0, 2, 4, 5, 7]) ∧
  (∀ d, d * 6 % 8 < 6 ↔ d % symbolsPerBlock 6 ∈ [0, 2, 3]) ∧
  (∀ d, d % 8 ∈ [0, 2, 4, 5, 7] →
    padsDue 5 d = match d % 8 with | 2 => 6 | 4 => 4 | 5 => 3 | 7 => 1 | _ => 0) ∧
  (∀ d, d % 4 ∈ [0, 2, 3] → padsDue 6 d = match d % 4 with | 2 => 2 | 3 => 1 | _ => 0)

/-- A decode frame whose characters, less the skipped ones, are data symbols and then pads appends the whole bytes of their
bit string and no byte made of leftover bits; it ends with DONE exactly when the length rule holds, and else with
INVALID_LENGTH at the number of characters consumed; for every such character sequence, configuration and ROM
(42_decoder.md; the length rule is R149, R150, R151). -/
def Obligations.DecodeFrameUnpacksTheBitString : Prop :=
  ∀ (s : State) (cs : List Byte) (vs : List Nat) (pads : Nat), s.mode = .idle → Suffixed s cs vs pads →
    ∃ t, runAll (decodeFrame cs) s = .next t ∧ t.out = s.out ++ wholeBytes s.k vs ∧ t.mode = .idle ∧
      t.incnt = BitVec.ofNat 32 cs.length ∧ t.cfg = s.cfg ∧ t.skip = s.skip ∧ t.rom = s.rom ∧ t.cmdErr = s.cmdErr ∧
      (LengthValid s vs pads → t.done = true ∧ t.err = none ∧ t.errPos = 0) ∧
      (¬LengthValid s vs pads →
        t.done = false ∧ t.err = some .invalidLength ∧ t.errPos = BitVec.ofNat 32 cs.length)

/-- A decode frame fails with INVALID_CHAR at the first character, not skipped, that is INVALID or a data symbol after a
pad: the bytes of the data symbols before it stay on OUT, no later character counts, and there is no success
(42_decoder.md; 60_exceptions.md section 2). -/
def Obligations.DecodeFrameFailsAtTheFirstBadCharacter : Prop :=
  ∀ (s : State) (before after : List Byte) (c : Byte) (vs : List Nat) (pads : Nat), s.mode = .idle →
    Suffixed s before vs pads → s.skips c = false →
    (s.classify c = .invalid ∨ (0 < pads ∧ ∃ v, s.classify c = .value v)) →
    ∃ t, runAll (decodeFrame (before ++ c :: after)) s = .next t ∧ t.out = s.out ++ wholeBytes s.k vs ∧
      t.mode = .idle ∧ t.done = false ∧ t.err = some .invalidChar ∧ t.errPos = BitVec.ofNat 32 before.length ∧
      t.incnt = BitVec.ofNat 32 (before.length + 1) ∧ t.cmdErr = s.cmdErr

/-- The round trip: decoding what an encode frame of any bytes emitted gives the bytes back with DONE and no error, for
every configuration and ROM, when no symbol of the alphabet and not its pad is skipped (42_decoder.md section 3, the round
trip, which the spec marks as derived). -/
def Obligations.DecodeOfEncodeFrameIsTheBytes : Prop :=
  ∀ (s : State) (bs : List Byte), s.mode = .idle →
    (∀ u v, v < 2 ^ s.k → s.skips (s.rom.fwd s.cfg.alpha u v) = false) →
    (∀ p, s.rom.padSym s.cfg.alpha = some p → s.skips p = false) →
    ∃ t u items, runAll (encodeFrame bs) s = .next t ∧ t.out = s.out ++ items ∧
      runAll (decodeFrame items) t = .next u ∧ u.out = t.out ++ bs ∧ u.done = true ∧ u.err = none ∧ u.mode = .idle

/-- Letter case does not matter to base16, base32 and base32hex: two decode frames whose characters differ in case alone
have the same OUT and the same verdict, under the default ROM and a skip mask that treats both cases of a letter alike
(42_decoder.md section 3, case insensitivity, which the spec marks as derived; it does not speak of the skip mask, log 11).
-/
def Obligations.LetterCaseDoesNotMatterWhenFolding : Prop :=
  ∀ (s : State) (cs ds : List Byte), s.mode = .idle → s.rom = defaultRom →
    (s.cfg.alpha = .base16 ∨ s.cfg.alpha = .base32 ∨ s.cfg.alpha = .base32hex) →
    (∀ c : Byte, s.skips (lowerVariant c) = s.skips c) →
    cs.map lowerVariant = ds.map lowerVariant →
    runAll (decodeFrame cs) s = runAll (decodeFrame ds) s

/-- A decode frame of n characters appends at most SIZE_DEC's floor(n * k / 8) bytes, whatever the characters
(42_decoder.md section 3, the output bound, which the spec marks as derived). -/
def Obligations.DecodeFrameStaysWithinTheSizeBound : Prop :=
  ∀ (s : State) (cs : List Byte), s.mode = .idle → ∃ t items, runAll (decodeFrame cs) s = .next t ∧
    t.out = s.out ++ items ∧ items.length ≤ maxDecodeSize s.k cs.length

/-! ### The size calculators (44_sizing.md) -/

/-- SIZE_ENC sets SIZE to ((N + BPB - 1) div BPB) * SPB in any mode, with no overflow, and writes nothing else; reserved
bits are ILLEGAL; base64 with N = 6 gives 8 (R190). -/
def Obligations.SizeEncComputesTheBound : Prop :=
  (∀ n : BitVec 24, decode (0xC0000000 ||| n.setWidth 32) = .ok (.sizeEnc n)) ∧
  (∀ (s : State) (n : BitVec 24), ∃ z : Word, exec (.sizeEnc n) s = .next { s with size := z } ∧
    z.toNat = (n.toNat + s.k / Nat.gcd 8 s.k - 1) / (s.k / Nat.gcd 8 s.k) * (8 / Nat.gcd 8 s.k) ∧
    z.toNat = ((8 * n.toNat + s.k - 1) / s.k + 8 / Nat.gcd 8 s.k - 1) / (8 / Nat.gcd 8 s.k) * (8 / Nat.gcd 8 s.k)) ∧
  (∀ w : Word, w.toNat / 2 ^ 28 = 0xC → 2 ^ 24 ≤ w.toNat % 2 ^ 28 → RaisesIllegal w) ∧
  (∃ t, runAll [.sizeEnc 6] State.reset = .next t ∧ t.size = 8)

/-- SIZE_DEC sets SIZE to (N * k) div 8 in any mode, with no overflow, and writes nothing else; reserved bits are ILLEGAL;
base64 with N = 4 gives 3 (R191). -/
def Obligations.SizeDecComputesTheBound : Prop :=
  (∀ n : BitVec 24, decode (0xD0000000 ||| n.setWidth 32) = .ok (.sizeDec n)) ∧
  (∀ (s : State) (n : BitVec 24), ∃ z : Word, exec (.sizeDec n) s = .next { s with size := z } ∧
    z.toNat = n.toNat * s.k / 8) ∧
  (∀ w : Word, w.toNat / 2 ^ 28 = 0xD → 2 ^ 24 ≤ w.toNat % 2 ^ 28 → RaisesIllegal w) ∧
  (∃ t, runAll [.sizeDec 4] State.reset = .next t ∧ t.size = 3)
end

