-- ==== Sys2Proof/Laws/State.lean ====
section
/-! SUPPORT. What each shared update of State does to each field: one lemma per field and update, so that no proof unfolds
a record update. -/

namespace Sys2Proof.Machine.State

variable (s : State) (x : Byte) (xs : List Byte)

/-! ### emit -/

@[simp] theorem emit_cfg : (s.emit x).cfg = s.cfg := rfl
@[simp] theorem emit_mode : (s.emit x).mode = s.mode := rfl
@[simp] theorem emit_acc : (s.emit x).acc = s.acc := rfl
@[simp] theorem emit_bits : (s.emit x).bits = s.bits := rfl
@[simp] theorem emit_incnt : (s.emit x).incnt = s.incnt := rfl
@[simp] theorem emit_datacnt : (s.emit x).datacnt = s.datacnt := rfl
@[simp] theorem emit_padcnt : (s.emit x).padcnt = s.padcnt := rfl
@[simp] theorem emit_outcnt : (s.emit x).outcnt = s.outcnt + 1 := rfl
@[simp] theorem emit_err : (s.emit x).err = s.err := rfl
@[simp] theorem emit_errPos : (s.emit x).errPos = s.errPos := rfl
@[simp] theorem emit_cmdErr : (s.emit x).cmdErr = s.cmdErr := rfl
@[simp] theorem emit_done : (s.emit x).done = s.done := rfl
@[simp] theorem emit_size : (s.emit x).size = s.size := rfl
@[simp] theorem emit_skip : (s.emit x).skip = s.skip := rfl
@[simp] theorem emit_out : (s.emit x).out = s.out ++ [x] := rfl
@[simp] theorem emit_rom : (s.emit x).rom = s.rom := rfl
@[simp] theorem emit_input : (s.emit x).input = s.input := rfl

/-! ### emitAll -/

/-- Emitting items appends them in order and counts them, and does nothing else (00_scope.md R10, 20_memory.md R59). -/
theorem emitAll_eq : s.emitAll xs =
    { s with out := s.out ++ xs, outcnt := s.outcnt + BitVec.ofNat 32 xs.length } := by
  induction xs generalizing s with
  | nil => simp [emitAll]
  | cons y ys ih =>
    have h : s.outcnt + 1#32 + BitVec.ofNat 32 ys.length = s.outcnt + BitVec.ofNat 32 (ys.length + 1) := by
      apply BitVec.eq_of_toNat_eq
      simp only [BitVec.toNat_add, BitVec.toNat_ofNat]
      omega
    simp only [emitAll, ih, emit, List.append_assoc, List.singleton_append, List.length_cons]
    rw [show (1 : BitVec 32) = 1#32 from rfl, h]

@[simp] theorem emitAll_cfg : (s.emitAll xs).cfg = s.cfg := by rw [emitAll_eq]
@[simp] theorem emitAll_mode : (s.emitAll xs).mode = s.mode := by rw [emitAll_eq]
@[simp] theorem emitAll_acc : (s.emitAll xs).acc = s.acc := by rw [emitAll_eq]
@[simp] theorem emitAll_bits : (s.emitAll xs).bits = s.bits := by rw [emitAll_eq]
@[simp] theorem emitAll_incnt : (s.emitAll xs).incnt = s.incnt := by rw [emitAll_eq]
@[simp] theorem emitAll_datacnt : (s.emitAll xs).datacnt = s.datacnt := by rw [emitAll_eq]
@[simp] theorem emitAll_padcnt : (s.emitAll xs).padcnt = s.padcnt := by rw [emitAll_eq]
@[simp] theorem emitAll_outcnt : (s.emitAll xs).outcnt = s.outcnt + BitVec.ofNat 32 xs.length := by rw [emitAll_eq]
@[simp] theorem emitAll_err : (s.emitAll xs).err = s.err := by rw [emitAll_eq]
@[simp] theorem emitAll_errPos : (s.emitAll xs).errPos = s.errPos := by rw [emitAll_eq]
@[simp] theorem emitAll_cmdErr : (s.emitAll xs).cmdErr = s.cmdErr := by rw [emitAll_eq]
@[simp] theorem emitAll_done : (s.emitAll xs).done = s.done := by rw [emitAll_eq]
@[simp] theorem emitAll_size : (s.emitAll xs).size = s.size := by rw [emitAll_eq]
@[simp] theorem emitAll_skip : (s.emitAll xs).skip = s.skip := by rw [emitAll_eq]
@[simp] theorem emitAll_out : (s.emitAll xs).out = s.out ++ xs := by rw [emitAll_eq]
@[simp] theorem emitAll_rom : (s.emitAll xs).rom = s.rom := by rw [emitAll_eq]
@[simp] theorem emitAll_input : (s.emitAll xs).input = s.input := by rw [emitAll_eq]

/-! ### raiseCmdError -/

@[simp] theorem raiseCmdError_cfg (kind : CommandError) : (s.raiseCmdError kind).cfg = s.cfg := rfl
@[simp] theorem raiseCmdError_mode (kind : CommandError) : (s.raiseCmdError kind).mode = s.mode := rfl
@[simp] theorem raiseCmdError_acc (kind : CommandError) : (s.raiseCmdError kind).acc = s.acc := rfl
@[simp] theorem raiseCmdError_bits (kind : CommandError) : (s.raiseCmdError kind).bits = s.bits := rfl
@[simp] theorem raiseCmdError_incnt (kind : CommandError) : (s.raiseCmdError kind).incnt = s.incnt := rfl
@[simp] theorem raiseCmdError_datacnt (kind : CommandError) : (s.raiseCmdError kind).datacnt = s.datacnt := rfl
@[simp] theorem raiseCmdError_padcnt (kind : CommandError) : (s.raiseCmdError kind).padcnt = s.padcnt := rfl
@[simp] theorem raiseCmdError_outcnt (kind : CommandError) : (s.raiseCmdError kind).outcnt = s.outcnt := rfl
@[simp] theorem raiseCmdError_err (kind : CommandError) : (s.raiseCmdError kind).err = s.err := rfl
@[simp] theorem raiseCmdError_errPos (kind : CommandError) : (s.raiseCmdError kind).errPos = s.errPos := rfl
@[simp] theorem raiseCmdError_done (kind : CommandError) : (s.raiseCmdError kind).done = s.done := rfl
@[simp] theorem raiseCmdError_size (kind : CommandError) : (s.raiseCmdError kind).size = s.size := rfl
@[simp] theorem raiseCmdError_skip (kind : CommandError) : (s.raiseCmdError kind).skip = s.skip := rfl
@[simp] theorem raiseCmdError_out (kind : CommandError) : (s.raiseCmdError kind).out = s.out := rfl
@[simp] theorem raiseCmdError_rom (kind : CommandError) : (s.raiseCmdError kind).rom = s.rom := rfl
@[simp] theorem raiseCmdError_input (kind : CommandError) : (s.raiseCmdError kind).input = s.input := rfl

@[simp] theorem raiseCmdError_cmdErr (kind : CommandError) :
    (s.raiseCmdError kind).cmdErr = some (s.cmdErr.getD kind) := by
  cases h : s.cmdErr <;> simp [raiseCmdError, h]

/-- raise CmdError keeps the first error and changes nothing else (60_exceptions.md R205). -/
theorem raiseCmdError_eq (kind : CommandError) :
    s.raiseCmdError kind = { s with cmdErr := some (s.cmdErr.getD kind) } := by
  cases h : s.cmdErr <;> simp [raiseCmdError, h]

/-! ### raiseDecodeError -/

@[simp] theorem raiseDecodeError_cfg (kind : DecodeError) (pos : Word) : (s.raiseDecodeError kind pos).cfg = s.cfg := rfl
@[simp] theorem raiseDecodeError_acc (kind : DecodeError) (pos : Word) : (s.raiseDecodeError kind pos).acc = s.acc := rfl
@[simp] theorem raiseDecodeError_bits (kind : DecodeError) (pos : Word) : (s.raiseDecodeError kind pos).bits = s.bits := rfl
@[simp] theorem raiseDecodeError_incnt (kind : DecodeError) (pos : Word) : (s.raiseDecodeError kind pos).incnt = s.incnt := rfl
@[simp] theorem raiseDecodeError_datacnt (kind : DecodeError) (pos : Word) : (s.raiseDecodeError kind pos).datacnt = s.datacnt := rfl
@[simp] theorem raiseDecodeError_padcnt (kind : DecodeError) (pos : Word) : (s.raiseDecodeError kind pos).padcnt = s.padcnt := rfl
@[simp] theorem raiseDecodeError_outcnt (kind : DecodeError) (pos : Word) : (s.raiseDecodeError kind pos).outcnt = s.outcnt := rfl
@[simp] theorem raiseDecodeError_err (kind : DecodeError) (pos : Word) : (s.raiseDecodeError kind pos).err = some kind := rfl
@[simp] theorem raiseDecodeError_errPos (kind : DecodeError) (pos : Word) : (s.raiseDecodeError kind pos).errPos = pos := rfl
@[simp] theorem raiseDecodeError_cmdErr (kind : DecodeError) (pos : Word) : (s.raiseDecodeError kind pos).cmdErr = s.cmdErr := rfl
@[simp] theorem raiseDecodeError_done (kind : DecodeError) (pos : Word) : (s.raiseDecodeError kind pos).done = s.done := rfl
@[simp] theorem raiseDecodeError_size (kind : DecodeError) (pos : Word) : (s.raiseDecodeError kind pos).size = s.size := rfl
@[simp] theorem raiseDecodeError_skip (kind : DecodeError) (pos : Word) : (s.raiseDecodeError kind pos).skip = s.skip := rfl
@[simp] theorem raiseDecodeError_out (kind : DecodeError) (pos : Word) : (s.raiseDecodeError kind pos).out = s.out := rfl
@[simp] theorem raiseDecodeError_rom (kind : DecodeError) (pos : Word) : (s.raiseDecodeError kind pos).rom = s.rom := rfl
@[simp] theorem raiseDecodeError_input (kind : DecodeError) (pos : Word) : (s.raiseDecodeError kind pos).input = s.input := rfl

@[simp] theorem raiseDecodeError_invalidChar_mode (pos : Word) :
    (s.raiseDecodeError .invalidChar pos).mode = .halt := rfl
@[simp] theorem raiseDecodeError_invalidLength_mode (pos : Word) :
    (s.raiseDecodeError .invalidLength pos).mode = s.mode := rfl

/-! ### openFrame -/

@[simp] theorem openFrame_cfg (m : Mode) : (s.openFrame m).cfg = s.cfg := rfl
@[simp] theorem openFrame_mode (m : Mode) : (s.openFrame m).mode = m := rfl
@[simp] theorem openFrame_acc (m : Mode) : (s.openFrame m).acc = 0 := rfl
@[simp] theorem openFrame_bits (m : Mode) : (s.openFrame m).bits = 0 := rfl
@[simp] theorem openFrame_incnt (m : Mode) : (s.openFrame m).incnt = 0 := rfl
@[simp] theorem openFrame_datacnt (m : Mode) : (s.openFrame m).datacnt = 0 := rfl
@[simp] theorem openFrame_padcnt (m : Mode) : (s.openFrame m).padcnt = 0 := rfl
@[simp] theorem openFrame_outcnt (m : Mode) : (s.openFrame m).outcnt = 0 := rfl
@[simp] theorem openFrame_err (m : Mode) : (s.openFrame m).err = none := rfl
@[simp] theorem openFrame_errPos (m : Mode) : (s.openFrame m).errPos = 0 := rfl
@[simp] theorem openFrame_cmdErr (m : Mode) : (s.openFrame m).cmdErr = s.cmdErr := rfl
@[simp] theorem openFrame_done (m : Mode) : (s.openFrame m).done = false := rfl
@[simp] theorem openFrame_size (m : Mode) : (s.openFrame m).size = s.size := rfl
@[simp] theorem openFrame_skip (m : Mode) : (s.openFrame m).skip = s.skip := rfl
@[simp] theorem openFrame_out (m : Mode) : (s.openFrame m).out = s.out := rfl
@[simp] theorem openFrame_rom (m : Mode) : (s.openFrame m).rom = s.rom := rfl
@[simp] theorem openFrame_input (m : Mode) : (s.openFrame m).input = s.input := rfl

/-! ### closeFrame -/

@[simp] theorem closeFrame_cfg : (s.closeFrame).cfg = s.cfg := rfl
@[simp] theorem closeFrame_mode : (s.closeFrame).mode = .idle := rfl
@[simp] theorem closeFrame_acc : (s.closeFrame).acc = 0 := rfl
@[simp] theorem closeFrame_bits : (s.closeFrame).bits = 0 := rfl
@[simp] theorem closeFrame_incnt : (s.closeFrame).incnt = s.incnt := rfl
@[simp] theorem closeFrame_datacnt : (s.closeFrame).datacnt = s.datacnt := rfl
@[simp] theorem closeFrame_padcnt : (s.closeFrame).padcnt = s.padcnt := rfl
@[simp] theorem closeFrame_outcnt : (s.closeFrame).outcnt = s.outcnt := rfl
@[simp] theorem closeFrame_err : (s.closeFrame).err = s.err := rfl
@[simp] theorem closeFrame_errPos : (s.closeFrame).errPos = s.errPos := rfl
@[simp] theorem closeFrame_cmdErr : (s.closeFrame).cmdErr = s.cmdErr := rfl
@[simp] theorem closeFrame_done : (s.closeFrame).done = s.done := rfl
@[simp] theorem closeFrame_size : (s.closeFrame).size = s.size := rfl
@[simp] theorem closeFrame_skip : (s.closeFrame).skip = s.skip := rfl
@[simp] theorem closeFrame_out : (s.closeFrame).out = s.out := rfl
@[simp] theorem closeFrame_rom : (s.closeFrame).rom = s.rom := rfl
@[simp] theorem closeFrame_input : (s.closeFrame).input = s.input := rfl

/-! ### resetEvent -/

@[simp] theorem resetEvent_cfg : (s.resetEvent).cfg = Cfg.reset := rfl
@[simp] theorem resetEvent_mode : (s.resetEvent).mode = .idle := rfl
@[simp] theorem resetEvent_acc : (s.resetEvent).acc = 0 := rfl
@[simp] theorem resetEvent_bits : (s.resetEvent).bits = 0 := rfl
@[simp] theorem resetEvent_incnt : (s.resetEvent).incnt = 0 := rfl
@[simp] theorem resetEvent_datacnt : (s.resetEvent).datacnt = 0 := rfl
@[simp] theorem resetEvent_padcnt : (s.resetEvent).padcnt = 0 := rfl
@[simp] theorem resetEvent_outcnt : (s.resetEvent).outcnt = 0 := rfl
@[simp] theorem resetEvent_err : (s.resetEvent).err = none := rfl
@[simp] theorem resetEvent_errPos : (s.resetEvent).errPos = 0 := rfl
@[simp] theorem resetEvent_cmdErr : (s.resetEvent).cmdErr = none := rfl
@[simp] theorem resetEvent_done : (s.resetEvent).done = false := rfl
@[simp] theorem resetEvent_size : (s.resetEvent).size = 0 := rfl
@[simp] theorem resetEvent_skip : (s.resetEvent).skip = 0 := rfl
@[simp] theorem resetEvent_out : (s.resetEvent).out = s.out := rfl
@[simp] theorem resetEvent_rom : (s.resetEvent).rom = s.rom := rfl
@[simp] theorem resetEvent_input : (s.resetEvent).input = s.input := rfl

/-! ### holdBits -/

@[simp] theorem holdBits_cfg (t n : Nat) : (s.holdBits t n).cfg = s.cfg := rfl
@[simp] theorem holdBits_mode (t n : Nat) : (s.holdBits t n).mode = s.mode := rfl
@[simp] theorem holdBits_acc (t n : Nat) : (s.holdBits t n).acc = BitVec.ofNat 32 (t &&& mask n) := rfl
@[simp] theorem holdBits_bits (t n : Nat) : (s.holdBits t n).bits = BitVec.ofNat 32 n := rfl
@[simp] theorem holdBits_incnt (t n : Nat) : (s.holdBits t n).incnt = s.incnt := rfl
@[simp] theorem holdBits_datacnt (t n : Nat) : (s.holdBits t n).datacnt = s.datacnt := rfl
@[simp] theorem holdBits_padcnt (t n : Nat) : (s.holdBits t n).padcnt = s.padcnt := rfl
@[simp] theorem holdBits_outcnt (t n : Nat) : (s.holdBits t n).outcnt = s.outcnt := rfl
@[simp] theorem holdBits_err (t n : Nat) : (s.holdBits t n).err = s.err := rfl
@[simp] theorem holdBits_errPos (t n : Nat) : (s.holdBits t n).errPos = s.errPos := rfl
@[simp] theorem holdBits_cmdErr (t n : Nat) : (s.holdBits t n).cmdErr = s.cmdErr := rfl
@[simp] theorem holdBits_done (t n : Nat) : (s.holdBits t n).done = s.done := rfl
@[simp] theorem holdBits_size (t n : Nat) : (s.holdBits t n).size = s.size := rfl
@[simp] theorem holdBits_skip (t n : Nat) : (s.holdBits t n).skip = s.skip := rfl
@[simp] theorem holdBits_out (t n : Nat) : (s.holdBits t n).out = s.out := rfl
@[simp] theorem holdBits_rom (t n : Nat) : (s.holdBits t n).rom = s.rom := rfl
@[simp] theorem holdBits_input (t n : Nat) : (s.holdBits t n).input = s.input := rfl

/-! ### presentFirst -/

@[simp] theorem presentFirst_cfg (w : Word) : (s.presentFirst w).cfg = s.cfg := rfl
@[simp] theorem presentFirst_mode (w : Word) : (s.presentFirst w).mode = s.mode := rfl
@[simp] theorem presentFirst_acc (w : Word) : (s.presentFirst w).acc = s.acc := rfl
@[simp] theorem presentFirst_bits (w : Word) : (s.presentFirst w).bits = s.bits := rfl
@[simp] theorem presentFirst_incnt (w : Word) : (s.presentFirst w).incnt = s.incnt := rfl
@[simp] theorem presentFirst_datacnt (w : Word) : (s.presentFirst w).datacnt = s.datacnt := rfl
@[simp] theorem presentFirst_padcnt (w : Word) : (s.presentFirst w).padcnt = s.padcnt := rfl
@[simp] theorem presentFirst_outcnt (w : Word) : (s.presentFirst w).outcnt = s.outcnt := rfl
@[simp] theorem presentFirst_err (w : Word) : (s.presentFirst w).err = s.err := rfl
@[simp] theorem presentFirst_errPos (w : Word) : (s.presentFirst w).errPos = s.errPos := rfl
@[simp] theorem presentFirst_cmdErr (w : Word) : (s.presentFirst w).cmdErr = s.cmdErr := rfl
@[simp] theorem presentFirst_done (w : Word) : (s.presentFirst w).done = s.done := rfl
@[simp] theorem presentFirst_size (w : Word) : (s.presentFirst w).size = s.size := rfl
@[simp] theorem presentFirst_skip (w : Word) : (s.presentFirst w).skip = s.skip := rfl
@[simp] theorem presentFirst_out (w : Word) : (s.presentFirst w).out = s.out := rfl
@[simp] theorem presentFirst_rom (w : Word) : (s.presentFirst w).rom = s.rom := rfl
@[simp] theorem presentFirst_input (w : Word) : (s.presentFirst w).input = .command w :: s.input := rfl

end Sys2Proof.Machine.State
end

