-- ==== Sys2Proof/Laws/Ops.lean ====
section
/-! SUPPORT. One lemma for each shared operation that says all it can do: the widths, the mode check, the packing loop,
the pads, the skip mask. -/

namespace Sys2Proof.Machine

/-- k is one of 1, 4, 5, 6 (00_scope.md R2). -/
theorem widthOf_cases (a : Alphabet) : widthOf a = 1 ∨ widthOf a = 4 ∨ widthOf a = 5 ∨ widthOf a = 6 := by
  cases a <;> decide

theorem State.k_cases (s : State) : s.k = 1 ∨ s.k = 4 ∨ s.k = 5 ∨ s.k = 6 := widthOf_cases s.cfg.alpha

theorem State.k_pos (s : State) : 0 < s.k := by
  rcases s.k_cases with h | h | h | h <;> omega

@[simp] theorem symbolsPerBlock_1 : symbolsPerBlock 1 = 8 := by decide
@[simp] theorem symbolsPerBlock_4 : symbolsPerBlock 4 = 2 := by decide
@[simp] theorem symbolsPerBlock_5 : symbolsPerBlock 5 = 8 := by decide
@[simp] theorem symbolsPerBlock_6 : symbolsPerBlock 6 = 4 := by decide
@[simp] theorem bytesPerBlock_1 : bytesPerBlock 1 = 1 := by decide
@[simp] theorem bytesPerBlock_4 : bytesPerBlock 4 = 1 := by decide
@[simp] theorem bytesPerBlock_5 : bytesPerBlock 5 = 5 := by decide
@[simp] theorem bytesPerBlock_6 : bytesPerBlock 6 = 3 := by decide

/-- Masking with mask(n) keeps the value modulo 2^n. -/
@[simp] theorem and_mask (x n : Nat) : x &&& mask n = x % 2 ^ n := Nat.and_two_pow_sub_one_eq_mod x n

/-- Where a code names an alphabet, the alphabet has that code. -/
@[simp] theorem alphabetOfCode_alphabetCode (a : Alphabet) : alphabetOfCode (alphabetCode a) = some a := by
  cases a <;> rfl

/-- A code at most 5 names an alphabet, whose code it is (10_state.md R23). -/
theorem exists_alphabetCode (c : BitVec 3) (h : c.toNat < 6) : ∃ a, c = alphabetCode a := by
  have hc : c = BitVec.ofNat 3 c.toNat := by simp
  have : c.toNat = 0 ∨ c.toNat = 1 ∨ c.toNat = 2 ∨ c.toNat = 3 ∨ c.toNat = 4 ∨ c.toNat = 5 := by omega
  rcases this with h | h | h | h | h | h <;> rw [h] at hc
  · exact ⟨.base2, hc⟩
  · exact ⟨.base16, hc⟩
  · exact ⟨.base32, hc⟩
  · exact ⟨.base32hex, hc⟩
  · exact ⟨.base64, hc⟩
  · exact ⟨.base64url, hc⟩

/-- The mode check: its three outcomes. -/
theorem inMode_cases (i : Instr) (s e : State) :
    (modeRule i s.mode = .ok ∧ inMode i s e = .next e) ∨
    (modeRule i s.mode = .drop ∧ inMode i s e = .next s) ∨
    (modeRule i s.mode = .seq ∧ inMode i s e = .next (s.raiseCmdError .sequence)) := by
  cases h : modeRule i s.mode <;> simp [inMode, h]

/-- The mode check always has a next state. -/
theorem inMode_next (i : Instr) (s e : State) : ∃ t, inMode i s e = .next t := by
  rcases inMode_cases i s e with ⟨-, h⟩ | ⟨-, h⟩ | ⟨-, h⟩ <;> exact ⟨_, h⟩

/-- A cell is drop only for DEC_SYM in HALT (60_exceptions.md R207). -/
theorem modeRule_drop {i : Instr} {m : Mode} (h : modeRule i m = .drop) : (∃ c, i = .decSym c) ∧ m = .halt := by
  cases i <;> cases m <;> simp [modeRule] at h ⊢

/-- The encoder's loop: n / k groups from the top of n held bits, n mod k bits left (41_encoder.md R122). -/
theorem takeGroups_eq (k t : Nat) (hk : 0 < k) : ∀ passes n : Nat, n ≤ passes * k →
    takeGroups k t passes n =
      ((List.range (n / k)).map fun j => (t >>> (n - (j + 1) * k)) % 2 ^ k, n % k) := by
  intro passes
  induction passes with
  | zero =>
    intro n h
    have : n = 0 := by omega
    simp [this, takeGroups]
  | succ passes ih =>
    intro n h
    by_cases hn : n < k
    · simp [takeGroups, hn, Nat.div_eq_of_lt hn, Nat.mod_eq_of_lt hn]
    · have hn' : k ≤ n := by omega
      have h' : n - k ≤ passes * k := by rw [Nat.succ_mul] at h; omega
      have hd : n / k = (n - k) / k + 1 := by
        rw [Nat.div_eq_sub_div hk hn']
      have hm : n % k = (n - k) % k := (Nat.mod_eq_sub_mod hn')
      rw [takeGroups, if_neg hn]
      simp only [ih (n - k) h', and_mask, hd, hm, List.range_succ_eq_map, List.map_cons, List.map_map]
      refine Prod.ext ?_ rfl
      simp only [Nat.zero_add, Nat.one_mul, List.cons.injEq, true_and]
      apply List.map_congr_left
      intro j _
      have : n - k - (j + 1) * k = n - (j + 1 + 1) * k := by
        rw [Nat.sub_sub, Nat.succ_mul (j + 1) k, Nat.add_comm]
      simp [Function.comp, this]

/-- padsDue is less than a block and completes the count to whole blocks (41_encoder.md R123). -/
theorem padsDue_spec (s : State) (n : Nat) :
    padsDue s.k n < symbolsPerBlock s.k ∧ (n + padsDue s.k n) % symbolsPerBlock s.k = 0 := by
  rcases s.k_cases with h | h | h | h <;> rw [h] <;> simp only [padsDue, symbolsPerBlock_1, symbolsPerBlock_4,
    symbolsPerBlock_5, symbolsPerBlock_6] <;> omega

/-- SKIP_SET's mask: bit c is v, every other bit as before (43_control.md R172). -/
theorem skipWrite_getLsbD (skip : BitVec 256) (c d : Byte) (v : Bool) :
    (skipWrite skip c v).getLsbD d.toNat = if d = c then v else skip.getLsbD d.toNat := by
  have hd : d.toNat < 256 := d.isLt
  by_cases h : d = c
  · subst h
    cases v <;> simp [skipWrite, hd]
  · have e : ¬d.toNat = c.toNat := fun e => h (BitVec.eq_of_toNat_eq e)
    cases v <;> simp [skipWrite, h, hd, e]

end Sys2Proof.Machine
end

