-- ==== Sys2Proof/Laws/Exec.lean ====
section
/-! SUPPORT. The machine's inversion lemmas: every command is one effect behind the mode check; a step is one of three
cases; a command neither reads nor writes the presented events. -/

namespace Sys2Proof.Machine

/-- What a command does in a mode that allows it. -/
def effectOf (i : Instr) (s : State) : State :=
  match i with
  | .nop => s
  | .cfgWr alpha u p x =>
    match cfgOperand alpha u p x with
    | none => s.raiseCmdError .illegal
    | some c => { s with cfg := c }
  | .skipSet c v => { s with skip := skipWrite s.skip c v }
  | .skipClr => { s with skip := 0 }
  | .encBegin => s.openFrame .enc
  | .encByte b => encByteEffect b s
  | .encEnd => encEndEffect s
  | .decBegin => s.openFrame .dec
  | .decSym c => decSymEffect c s
  | .decEnd => (decVerdict s).closeFrame
  | .abort => s.closeFrame
  | .clrErr => { s with cmdErr := none }
  | .sizeEnc n => { s with size := BitVec.ofNat 32 (maxEncodeSize s.k (sizeOperand n)) }
  | .sizeDec n => { s with size := BitVec.ofNat 32 (maxDecodeSize s.k (sizeOperand n)) }

/-- A well-formed command is its effect behind the mode check (60_exceptions.md R209). -/
theorem exec_eq_inMode (i : Instr) (s : State) (hi : i.wellFormed = true) : exec i s = inMode i s (effectOf i s) := by
  cases i with
  | cfgWr alpha u p x =>
    obtain ⟨a, rfl⟩ := exists_alphabetCode alpha (by simpa [Instr.wellFormed, Config.alphabetCount] using hi)
    simp [exec, execCfgWr, effectOf, cfgOperand]
  | _ => rfl

/-- CFG_WR of a code that names no alphabet raises ILLEGAL (30_encoding.md R76). -/
theorem exec_illFormed (i : Instr) (s : State) (hi : i.wellFormed = false) :
    exec i s = .next (s.raiseCmdError .illegal) := by
  cases i with
  | cfgWr alpha u p x =>
    have h : 6 ≤ alpha.toNat := by simpa [Instr.wellFormed, Config.alphabetCount] using hi
    have hc : alpha = BitVec.ofNat 3 alpha.toNat := by simp
    have : alpha.toNat = 6 ∨ alpha.toNat = 7 := by have := alpha.isLt; omega
    rcases this with h | h <;> (rw [h] at hc; subst hc; rfl)
  | _ => simp [Instr.wellFormed] at hi

/-- Everything a command can do: an ill-formed one raises ILLEGAL; a well-formed one has its effect where its cell is ok,
none where it is drop, and raises SEQUENCE elsewhere. -/
theorem exec_cases {i : Instr} {s t : State} (h : exec i s = .next t) :
    (i.wellFormed = false ∧ t = s.raiseCmdError .illegal) ∨
    (modeRule i s.mode = .ok ∧ i.wellFormed = true ∧ t = effectOf i s) ∨
    (modeRule i s.mode = .drop ∧ t = s) ∨
    (modeRule i s.mode = .seq ∧ t = s.raiseCmdError .sequence) := by
  cases hi : i.wellFormed with
  | false =>
    rw [exec_illFormed i s hi] at h
    exact .inl ⟨rfl, by simpa using h.symm⟩
  | true =>
    rw [exec_eq_inMode i s hi] at h
    rcases inMode_cases i s (effectOf i s) with ⟨hm, he⟩ | ⟨hm, he⟩ | ⟨hm, he⟩ <;> rw [he] at h <;>
      simp only [Host.Outcome.next.injEq] at h
    · exact .inr (.inl ⟨hm, rfl, h.symm⟩)
    · exact .inr (.inr (.inl ⟨hm, h.symm⟩))
    · exact .inr (.inr (.inr ⟨hm, h.symm⟩))

/-- In an ok mode a well-formed command has its effect. -/
theorem exec_ok {i : Instr} {s : State} (hi : i.wellFormed = true) (hm : modeRule i s.mode = .ok) :
    exec i s = .next (effectOf i s) := by
  rw [exec_eq_inMode i s hi, inMode, hm]

/-- In a SEQ mode a well-formed command raises SEQUENCE and does nothing else. -/
theorem exec_seq {i : Instr} {s : State} (hi : i.wellFormed = true) (hm : modeRule i s.mode = .seq) :
    exec i s = .next { s with cmdErr := some (s.cmdErr.getD .sequence) } := by
  rw [exec_eq_inMode i s hi, inMode, hm, ← State.raiseCmdError_eq]

/-- Every command has a next state. -/
theorem exec_next (i : Instr) (s : State) : ∃ t, exec i s = .next t := by
  cases hi : i.wellFormed with
  | false => exact ⟨_, exec_illFormed i s hi⟩
  | true =>
    rw [exec_eq_inMode i s hi]
    exact inMode_next i s _

/-- Taking a word: an illegal one raises ILLEGAL, any other is its command. -/
theorem step_command (s : State) (w : Word) (rest : List PortEvent) (h : s.input = .command w :: rest) :
    step s = match decode w with
      | .error _ => .next (State.raiseCmdError { s with input := rest } .illegal)
      | .ok i => exec i { s with input := rest } := by
  have e : step s = takeEvent (.command w) { s with input := rest } := by simp only [step, takeNextEvent, h]
  exact e.trans rfl

theorem step_reset (s : State) (rest : List PortEvent) (h : s.input = .reset :: rest) :
    step s = .next (State.resetEvent { s with input := rest }) := by
  simp only [step, takeNextEvent, h, takeEvent]

theorem step_commandWithReset (s : State) (w : Word) (rest : List PortEvent)
    (h : s.input = .commandWithReset w :: rest) : step s = .next (State.resetEvent { s with input := rest }) := by
  simp only [step, takeNextEvent, h, takeEvent]

theorem step_nothing (s : State) (h : s.input = []) : step s = .next s := by
  simp only [step, takeNextEvent, h]

/-- Everything a step can do. -/
theorem step_cases {s t : State} (h : step s = .next t) :
    (s.input = [] ∧ t = s) ∨
    (∃ e rest, s.input = e :: rest ∧ (e = .reset ∨ ∃ w, e = .commandWithReset w) ∧
      t = State.resetEvent { s with input := rest }) ∨
    (∃ w rest e, s.input = .command w :: rest ∧ decode w = .error e ∧
      t = State.raiseCmdError { s with input := rest } .illegal) ∨
    (∃ w rest i, s.input = .command w :: rest ∧ decode w = .ok i ∧ exec i { s with input := rest } = .next t) := by
  rcases hi : s.input with _ | ⟨e, rest⟩
  · rw [step_nothing s hi] at h
    exact .inl ⟨rfl, by simpa using h.symm⟩
  · cases e with
    | reset =>
      rw [step_reset s rest hi] at h
      exact .inr (.inl ⟨_, _, rfl, .inl rfl, by simpa using h.symm⟩)
    | commandWithReset w =>
      rw [step_commandWithReset s w rest hi] at h
      exact .inr (.inl ⟨_, _, rfl, .inr ⟨w, rfl⟩, by simpa using h.symm⟩)
    | command w =>
      rw [step_command s w rest hi] at h
      cases hd : decode w with
      | error e =>
        rw [hd] at h
        exact .inr (.inr (.inl ⟨w, rest, e, rfl, hd, by simpa using h.symm⟩))
      | ok i =>
        rw [hd] at h
        exact .inr (.inr (.inr ⟨w, rest, i, rfl, hd, h⟩))

/-- Taking a data symbol neither reads nor writes the presented events. -/
theorem decValueEffect_input (v : Nat) (s : State) (x : List PortEvent) :
    decValueEffect v { s with input := x } = { decValueEffect v s with input := x } := by
  have hk : State.k { s with input := x } = s.k := rfl
  simp only [decValueEffect, hk]
  by_cases h8 : s.bits.toNat + s.k ≥ 8
  · rw [if_pos h8, if_pos h8]; rfl
  · rw [if_neg h8, if_neg h8]; rfl

/-- Taking a character neither reads nor writes the presented events. -/
theorem decSymEffect_input (c : Byte) (s : State) (x : List PortEvent) :
    decSymEffect c { s with input := x } = { decSymEffect c s with input := x } := by
  have e1 : State.skips { s with input := x } c = s.skips c := rfl
  have e2 : State.classify { s with input := x } c = s.classify c := rfl
  simp only [decSymEffect, e1, e2]
  cases s.skips c
  · rw [if_neg (by decide), if_neg (by decide)]
    cases s.classify c with
    | invalid => rfl
    | pad => rfl
    | value v =>
      by_cases hp : s.padcnt ≠ 0
      · simp only [if_pos hp]; rfl
      · simp only [if_neg hp]
        exact decValueEffect_input v { s with incnt := s.incnt + 1 } x
  · rfl

/-- In DEC the length checks decide the verdict (42_decoder.md R148). -/
theorem decVerdict_dec {s : State} (h : s.mode = .dec) :
    decVerdict s = if s.lengthOk then { s with done := true } else s.raiseDecodeError .invalidLength s.incnt := by
  rw [decVerdict, h]

/-- Outside DEC there is no verdict (42_decoder.md R148). -/
theorem decVerdict_other {s : State} (h : s.mode ≠ .dec) : decVerdict s = s := by
  rw [decVerdict]
  cases hm : s.mode <;> first | rfl | exact absurd hm h

/-- The verdict neither reads nor writes the presented events. -/
theorem decVerdict_input (s : State) (x : List PortEvent) :
    decVerdict { s with input := x } = { decVerdict s with input := x } := by
  have e : State.lengthOk { s with input := x } = s.lengthOk := rfl
  by_cases h : s.mode = .dec
  · rw [decVerdict_dec h, decVerdict_dec (s := { s with input := x }) h, e]
    cases s.lengthOk <;> rfl
  · rw [decVerdict_other h, decVerdict_other (s := { s with input := x }) h]

/-- A command's effect neither reads nor writes the presented events. -/
theorem effectOf_input (i : Instr) (s : State) (x : List PortEvent) :
    effectOf i { s with input := x } = { effectOf i s with input := x } := by
  cases i with
  | cfgWr a u p y => simp only [effectOf]; cases cfgOperand a u p y <;> rfl
  | encByte b => simp only [effectOf, encByteEffect, State.emitAll_eq]; rfl
  | encEnd => simp only [effectOf, encEndEffect, State.emitAll_eq]; rfl
  | decSym c => exact decSymEffect_input c s x
  | decEnd => simp only [effectOf, decVerdict_input]; rfl
  | _ => rfl

/-- A command neither reads nor writes the presented events. -/
theorem exec_input {i : Instr} {s t : State} (h : exec i s = .next t) (x : List PortEvent) :
    exec i { s with input := x } = .next { t with input := x } := by
  cases hi : i.wellFormed with
  | false =>
    rw [exec_illFormed i _ hi] at h ⊢
    simp only [Host.Outcome.next.injEq] at h
    rw [← h]; rfl
  | true =>
    rw [exec_eq_inMode i _ hi] at h ⊢
    rw [effectOf_input]
    simp only [inMode] at h ⊢
    cases hm : modeRule i s.mode <;> rw [hm] at h <;> simp only [Host.Outcome.next.injEq] at h <;> rw [← h] <;> rfl

/-- A command leaves the presented events as they are. -/
theorem exec_keeps_input {i : Instr} {s t : State} (h : exec i s = .next t) : t.input = s.input := by
  have h' := exec_input h s.input
  rw [h] at h'
  simpa using congrArg State.input (Host.Outcome.next.inj h')

end Sys2Proof.Machine
end

