-- ==== Sys2Proof/Laws/Codec.lean ====
section
/-! SUPPORT. One lemma for each effect of the encoder and the decoder that says all of it in arithmetic; the class of a
character under a well-formed ROM. -/

namespace Sys2Proof.Machine

/-- Bits entering below the held ones add up with them (20_memory.md R54). -/
theorem State.shiftIn_eq (s : State) (w v : Nat) (h : v < 2 ^ w) : s.shiftIn w v = s.acc.toNat * 2 ^ w + v := by
  rw [State.shiftIn, ← Nat.shiftLeft_add_eq_or_of_lt h, Nat.shiftLeft_eq]

/-- Each entry of a ROM is well formed for its alphabet's width (40_alphabet.md R102). -/
theorem AlphabetRom.entry_wf (r : AlphabetRom) (a : Alphabet) : (r.data.entry a).wellFormed (widthOf a) = true := by
  have := r.wf
  simp only [RomData.wellFormed, List.all_cons, Bool.and_eq_true] at this
  cases a <;> simp_all

/-- UP(a) has 2^K(a) symbols (40_alphabet.md R101). -/
theorem AlphabetRom.up_length (r : AlphabetRom) (a : Alphabet) : (r.data.entry a).up.length = 2 ^ widthOf a := by
  have h := r.entry_wf a
  simp only [AlphabetEntry.wellFormed, Bool.and_eq_true, beq_iff_eq] at h
  exact h.1.1.1

/-- The lower-case variants are as many as the symbols (40_alphabet.md R102, condition 3). -/
theorem AlphabetRom.low_length (r : AlphabetRom) (a : Alphabet) {low : List Byte}
    (hl : (r.data.entry a).low = some low) : low.length = 2 ^ widthOf a := by
  have h := r.entry_wf a
  simp only [AlphabetEntry.wellFormed, Bool.and_eq_true, lowWellFormed, hl, beq_iff_eq] at h
  rw [h.1.2.1.1, r.up_length a]

theorem lt_length_of_idxOf? {l : List Byte} {c : Byte} {v : Nat} (h : l.idxOf? c = some v) : v < l.length := by
  rw [List.idxOf?, List.findIdx?_eq_some_iff_findIdx_eq] at h
  exact h.1

/-- A symbol's value is below 2^K(a) (40_alphabet.md R112). -/
theorem AlphabetRom.rlut_lt {r : AlphabetRom} {a : Alphabet} {c : Byte} {v : Nat} (h : r.rlut a c = .value v) :
    v < 2 ^ widthOf a := by
  simp only [AlphabetRom.rlut] at h
  split at h
  next w hw =>
    simp only [SymbolClass.value.injEq] at h
    rw [← h, ← r.up_length a]
    exact lt_length_of_idxOf? hw
  next =>
    split at h
    next w hw =>
      simp only [SymbolClass.value.injEq] at h
      subst h
      cases hl : (r.data.entry a).low with
      | none => simp [hl] at hw
      | some low =>
        rw [← r.low_length a hl]
        exact lt_length_of_idxOf? (by simpa [hl] using hw)
    next => split at h <;> cases h

/-- ENC_BYTE, all of its effect (41_encoder.md R122). -/
theorem encByteEffect_eq (b : Byte) (s : State) : encByteEffect b s =
    { s with
      acc := BitVec.ofNat 32 ((s.acc.toNat * 2 ^ 8 + b.toNat) % 2 ^ ((s.bits.toNat + 8) % s.k))
      bits := BitVec.ofNat 32 ((s.bits.toNat + 8) % s.k)
      incnt := s.incnt + 1
      outcnt := s.outcnt + BitVec.ofNat 32 ((s.bits.toNat + 8) / s.k)
      out := s.out ++ (List.range ((s.bits.toNat + 8) / s.k)).map fun j =>
        s.symOut ((s.acc.toNat * 2 ^ 8 + b.toNat) / 2 ^ (s.bits.toNat + 8 - (j + 1) * s.k) % 2 ^ s.k) } := by
  have h := takeGroups_eq s.k (s.acc.toNat * 2 ^ 8 + b.toNat) s.k_pos (s.bits.toNat + 8) (s.bits.toNat + 8)
    (Nat.le_mul_of_pos_right _ s.k_pos)
  simp only [encByteEffect, byteOperand, s.shiftIn_eq 8 b.toNat b.isLt, h, State.holdBits, State.emitAll_eq, and_mask,
    List.length_map, List.length_range, List.map_map, Nat.shiftRight_eq_div_pow]
  rfl

/-- ENC_END, all of its effect but the values of its items (41_encoder.md R123). -/
theorem encEndEffect_eq (s : State) : ∃ pads, encEndEffect s =
    { s with acc := 0, bits := 0, done := true, mode := .idle
             outcnt := s.outcnt + BitVec.ofNat 32 (s.finalSymbol ++ pads).length
             out := s.out ++ (s.finalSymbol ++ pads) } ∧
    pads = match s.rom.padSym s.cfg.alpha with
      | none => []
      | some p => if s.cfg.padEn && padWidth s.k
          then List.replicate (padsDue s.k (s.outcnt + BitVec.ofNat 32 s.finalSymbol.length).toNat) p else [] := by
  refine ⟨(s.emitAll s.finalSymbol).finalPads, ?_, ?_⟩
  · simp only [encEndEffect, State.emitAll_eq, State.closeFrame, List.length_append, BitVec.ofNat_add, BitVec.add_assoc,
      List.append_assoc]
  · simp only [State.finalPads, State.emitAll_eq]
    rfl

/-- A data symbol, all of its effect: it waits below the held bits, or completes a byte (42_decoder.md R142, R147). -/
theorem decValueEffect_cases (v : Nat) (s : State) (hv : v < 2 ^ s.k) :
    (s.bits.toNat + s.k < 8 ∧ decValueEffect v s =
      { s with
        datacnt := s.datacnt + 1
        acc := BitVec.ofNat 32 ((s.acc.toNat * 2 ^ s.k + v) % 2 ^ (s.bits.toNat + s.k))
        bits := BitVec.ofNat 32 (s.bits.toNat + s.k) }) ∨
    (8 ≤ s.bits.toNat + s.k ∧ decValueEffect v s =
      { s with
        datacnt := s.datacnt + 1
        outcnt := s.outcnt + 1
        out := s.out ++ [BitVec.ofNat 8 ((s.acc.toNat * 2 ^ s.k + v) / 2 ^ (s.bits.toNat + s.k - 8))]
        acc := BitVec.ofNat 32 ((s.acc.toNat * 2 ^ s.k + v) % 2 ^ (s.bits.toNat + s.k - 8))
        bits := BitVec.ofNat 32 (s.bits.toNat + s.k - 8) }) := by
  have e : ∀ x, BitVec.ofNat 8 (x &&& 255) = BitVec.ofNat 8 x := by
    intro x
    apply BitVec.eq_of_toNat_eq
    have := Nat.and_two_pow_sub_one_eq_mod x 8
    simp only [BitVec.toNat_ofNat]
    simp at this ⊢
    omega
  by_cases h : 8 ≤ s.bits.toNat + s.k
  · refine .inr ⟨h, ?_⟩
    simp only [decValueEffect, ge_iff_le, if_pos h, State.holdBits, State.emit, and_mask, e, s.shiftIn_eq s.k v hv,
      Nat.shiftRight_eq_div_pow]
  · refine .inl ⟨by omega, ?_⟩
    simp only [decValueEffect, ge_iff_le, if_neg h, State.holdBits, and_mask, s.shiftIn_eq s.k v hv]

/-- DEC_SYM in DEC, all of its effect: the character is skipped, refused, a pad, or data (42_decoder.md R142 to R147). -/
theorem decSymEffect_cases (c : Byte) (s : State) :
    (s.skips c = true ∧ decSymEffect c s = { s with incnt := s.incnt + 1 }) ∨
    (s.skips c = false ∧ (s.classify c = .invalid ∨ s.padcnt ≠ 0 ∧ ∃ v, s.classify c = .value v) ∧
      decSymEffect c s = { s with incnt := s.incnt + 1, err := some .invalidChar, errPos := s.incnt, mode := .halt }) ∨
    (s.skips c = false ∧ s.classify c = .pad ∧
      decSymEffect c s = { s with incnt := s.incnt + 1, padcnt := satInc s.padcnt }) ∨
    (∃ v, s.skips c = false ∧ s.classify c = .value v ∧ v < 2 ^ s.k ∧ s.padcnt = 0 ∧
      decSymEffect c s = decValueEffect v { s with incnt := s.incnt + 1 }) := by
  simp only [decSymEffect]
  cases h1 : s.skips c with
  | true => exact .inl ⟨rfl, rfl⟩
  | false =>
    rw [if_neg (by decide)]
    cases h2 : s.classify c with
    | invalid => exact .inr (.inl ⟨rfl, .inl rfl, rfl⟩)
    | pad => exact .inr (.inr (.inl ⟨rfl, rfl, rfl⟩))
    | value v =>
      by_cases hp : s.padcnt = 0
      · exact .inr (.inr (.inr ⟨v, rfl, rfl, AlphabetRom.rlut_lt h2, hp, if_neg (not_not_intro hp)⟩))
      · exact .inr (.inl ⟨rfl, .inr ⟨hp, v, rfl⟩, if_pos hp⟩)

/-- sat_inc adds 1 up to 2^32 - 1 (00_scope.md R9). -/
theorem satInc_toNat (x : Word) : (satInc x).toNat = min (x.toNat + 1) (2 ^ 32 - 1) := by
  have := x.isLt
  rw [satInc]
  split
  next h => subst h; rfl
  next h =>
    have : x.toNat ≠ 2 ^ 32 - 1 := fun e => h (BitVec.eq_of_toNat_eq (by rw [e]; rfl))
    rw [BitVec.toNat_add]
    simp at this ⊢
    omega

end Sys2Proof.Machine
end

