-- ==== Sys2Proof/Laws/Decode.lean ====
section
/-! SUPPORT. The words of the commands as numbers: the row masks are the bits from a position up, and an encoding is its
opcode in bits 31:28 plus its operands' value. -/

namespace Sys2Proof

/-- The bits of a word from position n up. -/
theorem and_highMask (w : Word) (n : Nat) (hn : n ≤ 32) :
    (w &&& BitVec.ofNat 32 (2 ^ 32 - 2 ^ n)).toNat = w.toNat / 2 ^ n * 2 ^ n := by
  have hm : (2 ^ 32 - 2 ^ n) % 2 ^ 32 = (2 ^ (32 - n) - 1) <<< n := by
    have h1 : 0 < 2 ^ n := Nat.two_pow_pos n
    rw [Nat.mod_eq_of_lt (by omega), Nat.shiftLeft_eq, Nat.sub_mul, ← Nat.pow_add, Nat.sub_add_cancel hn, Nat.one_mul]
  rw [BitVec.toNat_and, BitVec.toNat_ofNat, hm, ← Nat.shiftRight_eq_div_pow, ← Nat.shiftLeft_eq]
  apply Nat.eq_of_testBit_eq
  intro i
  simp only [Nat.testBit_and, Nat.testBit_shiftLeft, Nat.testBit_two_pow_sub_one, Nat.testBit_shiftRight]
  by_cases h : n ≤ i
  · by_cases h32 : i < 32
    · simp [h, show n + (i - n) = i by omega, show i - n < 32 - n by omega]
    · have : w.toNat.testBit i = false := by
        apply Nat.testBit_lt_two_pow
        exact Nat.lt_of_lt_of_le w.isLt (Nat.pow_le_pow_right (by decide) (by omega))
      simp [h, show n + (i - n) = i by omega, this]
  · simp [h]

/-- The match of a row as a statement about numbers (30_encoding.md R73). -/
theorem row_match_iff (w m : Word) (n : Nat) (hn : n ≤ 32) :
    w &&& BitVec.ofNat 32 (2 ^ 32 - 2 ^ n) = m ↔ w.toNat / 2 ^ n * 2 ^ n = m.toNat := by
  rw [← and_highMask w n hn]
  exact ⟨fun h => by rw [h], BitVec.eq_of_toNat_eq⟩

/-! Layout N has no operand bit, C six, S nine, B eight, Z twenty-four (30_encoding.md R71). -/

theorem row_match_N (w m : Word) : w &&& 0xFFFFFFFF = m ↔ w.toNat = m.toNat := by
  simpa using row_match_iff w m 0 (by decide)
theorem row_match_C (w m : Word) : w &&& 0xFFFFFFC0 = m ↔ w.toNat / 64 * 64 = m.toNat :=
  row_match_iff w m 6 (by decide)
theorem row_match_S (w m : Word) : w &&& 0xFFFFFE00 = m ↔ w.toNat / 512 * 512 = m.toNat :=
  row_match_iff w m 9 (by decide)
theorem row_match_B (w m : Word) : w &&& 0xFFFFFF00 = m ↔ w.toNat / 256 * 256 = m.toNat :=
  row_match_iff w m 8 (by decide)
theorem row_match_Z (w m : Word) : w &&& 0xFF000000 = m ↔ w.toNat / 16777216 * 16777216 = m.toNat :=
  row_match_iff w m 24 (by decide)

/-! The fields of a word as numbers (30_encoding.md R72). -/

theorem opField_toNat (w : Word) : (opField w).toNat = w.toNat / 268435456 := by
  have := w.isLt
  simp only [opField, BitVec.extractLsb'_toNat, Nat.shiftRight_eq_div_pow]
  omega
theorem byteField_toNat (w : Word) : (byteField w).toNat = w.toNat % 256 := by simp [byteField]
theorem sizeField_toNat (w : Word) : (sizeField w).toNat = w.toNat % 16777216 := by simp [sizeField]
theorem alphaField_toNat (w : Word) : (alphaField w).toNat = w.toNat % 8 := by simp [alphaField]
theorem bit_toNat (w : Word) (p : Nat) : (w.getLsbD p).toNat = w.toNat / 2 ^ p % 2 := by
  rw [BitVec.getLsbD, Nat.testBit_eq_decide_div_mod_eq]
  have : w.toNat / 2 ^ p % 2 = 0 ∨ w.toNat / 2 ^ p % 2 = 1 := by omega
  rcases this with h | h <;> simp [h]

/-- A row whose word matches gives its command, any other word a reserved bit. -/
theorem rowDecode_cases (w m k : Word) (i : Instr) :
    (w &&& k = m ∧ rowDecode w m k i = .ok i) ∨ (w &&& k ≠ m ∧ rowDecode w m k i = .error .reservedBit) := by
  by_cases h : w &&& k = m <;> simp [rowDecode, h]

/-- Adding bits below a position is or-ing them. -/
theorem or_low_toNat (a b : Word) (n : Nat) (ha : a.toNat % 2 ^ n = 0) (hb : b.toNat < 2 ^ n) :
    (a ||| b).toNat = a.toNat + b.toNat := by
  have : a.toNat = (a.toNat / 2 ^ n) <<< n := by
    rw [Nat.shiftLeft_eq]
    exact (Nat.div_mul_cancel (Nat.dvd_of_mod_eq_zero ha)).symm
  rw [BitVec.toNat_or, this, Nat.shiftLeft_add_eq_or_of_lt hb]

@[simp] theorem bitAt_toNat (p : Nat) (b : Bool) (hp : p < 32) : (bitAt p b).toNat = b.toNat * 2 ^ p := by
  cases b
  · simp [bitAt]
  · simp [bitAt, BitVec.toNat_twoPow_of_lt hp]

/-- The value of a command's operand fields in its word (30_encoding.md R71, R79). -/
def Instr.operandValue : Instr → Nat
  | .cfgWr alpha u p x => 32 * x.toNat + 16 * p.toNat + 8 * u.toNat + alpha.toNat
  | .skipSet c v => 256 * v.toNat + c.toNat
  | .encByte b => b.toNat
  | .decSym c => c.toNat
  | .sizeEnc n => n.toNat
  | .sizeDec n => n.toNat
  | _ => 0

/-- A command's word as a number. -/
theorem encode_toNat (i : Instr) : (encode i).toNat = 268435456 * i.opcode + i.operandValue := by
  cases i with
  | cfgWr alpha u p x =>
    have ha : alpha.toNat < 8 := alpha.isLt
    have hx : x.toNat ≤ 1 := x.toNat_le
    have hp : p.toNat ≤ 1 := p.toNat_le
    have hu : u.toNat ≤ 1 := u.toNat_le
    have haw : (alpha.setWidth 32).toNat = alpha.toNat := by simp only [BitVec.toNat_setWidth]; omega
    have hB : ∀ q b, q < 32 → (bitAt q b).toNat = b.toNat * 2 ^ q := bitAt_toNat
    have h1 : (0x10000000 ||| bitAt 5 x).toNat = 0x10000000 + x.toNat * 2 ^ 5 := by
      rw [or_low_toNat _ _ 6 (by decide) (by rw [hB 5 x (by decide)]; omega), hB 5 x (by decide)]; rfl
    have h2 : (0x10000000 ||| bitAt 5 x ||| bitAt 4 p).toNat = 0x10000000 + x.toNat * 2 ^ 5 + p.toNat * 2 ^ 4 := by
      rw [or_low_toNat _ _ 5 (by rw [h1]; omega) (by rw [hB 4 p (by decide)]; omega), h1, hB 4 p (by decide)]
    have h3 : (0x10000000 ||| bitAt 5 x ||| bitAt 4 p ||| bitAt 3 u).toNat =
        0x10000000 + x.toNat * 2 ^ 5 + p.toNat * 2 ^ 4 + u.toNat * 2 ^ 3 := by
      rw [or_low_toNat _ _ 4 (by rw [h2]; omega) (by rw [hB 3 u (by decide)]; omega), h2, hB 3 u (by decide)]
    have h4 := or_low_toNat (0x10000000 ||| bitAt 5 x ||| bitAt 4 p ||| bitAt 3 u) (alpha.setWidth 32) 3
      (by rw [h3]; omega) (by rw [haw]; omega)
    simp only [encode, h4, h3, haw, Instr.opcode, Instr.operandValue]
    omega
  | skipSet c v =>
    have hc : c.toNat < 256 := c.isLt
    have hv : v.toNat ≤ 1 := v.toNat_le
    have hcw : (c.setWidth 32).toNat = c.toNat := by simp only [BitVec.toNat_setWidth]; omega
    have hB : (bitAt 8 v).toNat = v.toNat * 2 ^ 8 := bitAt_toNat 8 v (by decide)
    have h1 : (0x20000000 ||| bitAt 8 v).toNat = 0x20000000 + v.toNat * 2 ^ 8 := by
      rw [or_low_toNat _ _ 9 (by decide) (by rw [hB]; omega), hB]; rfl
    have h2 := or_low_toNat (0x20000000 ||| bitAt 8 v) (c.setWidth 32) 8 (by rw [h1]; omega) (by rw [hcw]; omega)
    simp only [encode, h2, h1, hcw, Instr.opcode, Instr.operandValue]
    omega
  | encByte b | decSym b =>
    have hb : b.toNat < 256 := b.isLt
    have hbw : (b.setWidth 32).toNat = b.toNat := by simp only [BitVec.toNat_setWidth]; omega
    simp only [encode, Instr.opcode, Instr.operandValue]
    rw [or_low_toNat _ _ 8 (by decide) (by rw [hbw]; omega), hbw]; rfl
  | sizeEnc n | sizeDec n =>
    have hn : n.toNat < 2 ^ 24 := n.isLt
    have hnw : (n.setWidth 32).toNat = n.toNat := by simp only [BitVec.toNat_setWidth]; omega
    simp only [encode, Instr.opcode, Instr.operandValue]
    rw [or_low_toNat _ _ 24 (by decide) (by rw [hnw]; omega), hnw]; rfl
  | _ => rfl

end Sys2Proof
end

