-- ==== Sys2Proof/Laws/PerInstr.lean ====
section
/-! SUPPORT. Statements about every command as syntax, one lemma per constructor: the word of a command matches the row
of its opcode (30_encoding.md R73). -/

namespace Sys2Proof.Laws.RowMatch

/-- The command's word is its own row's: (w & mask) = match (30_encoding.md R73). -/
def Statement (i : Instr) : Prop := ∃ r, opcodeRows[i.opcode]? = some r ∧ encode i &&& r.2 = r.1

theorem nop : Statement .nop := ⟨_, rfl, by decide⟩

theorem cfgWr (alpha : BitVec 3) (ucase padEn strict : Bool) : Statement (.cfgWr alpha ucase padEn strict) := by
  refine ⟨_, rfl, (row_match_C _ _).2 ?_⟩
  have := alpha.isLt
  have := ucase.toNat_le
  have := padEn.toNat_le
  have := strict.toNat_le
  simp only [encode_toNat, Instr.opcode, Instr.operandValue]
  change _ = 0x10000000
  omega

theorem skipSet (c : Byte) (v : Bool) : Statement (.skipSet c v) := by
  refine ⟨_, rfl, (row_match_S _ _).2 ?_⟩
  have := c.isLt
  have := v.toNat_le
  simp only [encode_toNat, Instr.opcode, Instr.operandValue]
  change _ = 0x20000000
  omega

theorem skipClr : Statement .skipClr := ⟨_, rfl, by decide⟩
theorem encBegin : Statement .encBegin := ⟨_, rfl, by decide⟩

theorem encByte (b : Byte) : Statement (.encByte b) := by
  refine ⟨_, rfl, (row_match_B _ _).2 ?_⟩
  have := b.isLt
  simp only [encode_toNat, Instr.opcode, Instr.operandValue]
  change _ = 0x50000000
  omega

theorem encEnd : Statement .encEnd := ⟨_, rfl, by decide⟩
theorem decBegin : Statement .decBegin := ⟨_, rfl, by decide⟩

theorem decSym (c : Byte) : Statement (.decSym c) := by
  refine ⟨_, rfl, (row_match_B _ _).2 ?_⟩
  have := c.isLt
  simp only [encode_toNat, Instr.opcode, Instr.operandValue]
  change _ = 0x80000000
  omega

theorem decEnd : Statement .decEnd := ⟨_, rfl, by decide⟩
theorem abort : Statement .abort := ⟨_, rfl, by decide⟩
theorem clrErr : Statement .clrErr := ⟨_, rfl, by decide⟩

theorem sizeEnc (n : BitVec 24) : Statement (.sizeEnc n) := by
  refine ⟨_, rfl, (row_match_Z _ _).2 ?_⟩
  have := n.isLt
  simp only [encode_toNat, Instr.opcode, Instr.operandValue]
  change _ = 0xC0000000
  omega

theorem sizeDec (n : BitVec 24) : Statement (.sizeDec n) := by
  refine ⟨_, rfl, (row_match_Z _ _).2 ?_⟩
  have := n.isLt
  simp only [encode_toNat, Instr.opcode, Instr.operandValue]
  change _ = 0xD0000000
  omega

end Sys2Proof.Laws.RowMatch
end

