-- ==== Sys2Proof/Laws/Run.lean ====
section
/-! SUPPORT. Running the machine: one step of the host's run, and a list of commands as one command after another. -/

namespace Sys2Proof.Machine

/-- A run of n + 1 steps is one step and a run of n. -/
theorem core_run_succ (n : Nat) {s t : State} (h : step s = .next t) :
    Host.Core.run Sys2Proof.core (n + 1) s = Host.Core.run Sys2Proof.core n t := by
  have h' : Sys2Proof.core.step s = .next t := h
  simp only [Host.Core.run, h']

/-- Running a list is running its first command and then the others. -/
theorem runAll_cons {i : Instr} {is : List Instr} {s t : State} (h : exec i s = .next t) :
    runAll (i :: is) s = runAll is t := by
  simp only [runAll, h]

/-- Running one list after another. -/
theorem runAll_append {is js : List Instr} {s t : State} (h : runAll is s = .next t) :
    runAll (is ++ js) s = runAll js t := by
  induction is generalizing s with
  | nil =>
    simp only [runAll, Host.Outcome.next.injEq] at h
    rw [List.nil_append, h]
  | cons i is ih =>
    obtain ⟨u, hu⟩ := exec_next i s
    rw [List.cons_append, runAll_cons hu]
    exact ih (by rw [← h, runAll_cons hu])

end Sys2Proof.Machine
end

