-- ==== Sys2Proof/Tests/Slice0.lean ====
section
/-! SUPPORT. The model's own tests: words written out from the layouts of spec/30_encoding.md, single steps whose results
come from the worked examples of spec/ (named in each comment), and one witness for the hypotheses of each statement. -/

namespace Sys2Proof.Machine.Tests

open Sys2Proof

/-- The next state of an outcome. -/
def nextOf : Host.Outcome State Fault Refusal → Option State
  | .next t => some t
  | .fault _ => none
  | .refused _ => none

/-- The reset state in another mode. -/
def modeState (m : Mode) : State := { State.reset with mode := m }

/-- The reset state with presented events. -/
def presented (es : List PortEvent) : State := { State.reset with input := es }

/-- A state in a mode with a word presented. -/
def modePresented (m : Mode) (es : List PortEvent) : State := { State.reset with mode := m, input := es }

/-- Base64 in ENC after the byte 0x66 (41_encoder.md R122, R123). -/
def encAfterF : State :=
  { State.reset with mode := .enc, acc := 2, bits := 2, incnt := 1, outcnt := 1, out := [0x5A] }

/-- Base64 in DEC after the character Z (42_decoder.md R142). -/
def decAfterZ : State := { State.reset with mode := .dec, acc := 25, bits := 6, incnt := 1, datacnt := 1 }

/-- A failed base64 frame (60_exceptions.md R206). -/
def halted : State := { State.reset with mode := .halt, incnt := 3, err := some .invalidChar, errPos := 2 }

/-! ### Ill-formed terms and words (30_encoding.md R74 to R77) -/

theorem test_wellFormed_refuses_alpha6 : (Instr.cfgWr 6 true true false).wellFormed = false := by decide
theorem test_wellFormed_refuses_alpha7 : (Instr.cfgWr 7 false false false).wellFormed = false := by decide
theorem test_wellFormed_takes_alpha5 : (Instr.cfgWr 5 true true true).wellFormed = true := by decide
theorem test_decode_refuses_alpha6 : decode 0x1000001E = .error .alphabetCode := by rfl
theorem test_decode_refuses_opcodeE : decode 0xE0000000 = .error .reservedOpcode := by rfl
theorem test_decode_refuses_opcodeF : decode 0xFFFFFFFF = .error .reservedOpcode := by rfl
theorem test_decode_refuses_nop_bit27 : decode 0x08000000 = .error .reservedBit := by rfl
theorem test_decode_refuses_cfg_bit6 : decode 0x1000005C = .error .reservedBit := by rfl
theorem test_decode_refuses_skip_bit9 : decode 0x20000200 = .error .reservedBit := by rfl
theorem test_decode_refuses_byte_bit8 : decode 0x50000100 = .error .reservedBit := by rfl
theorem test_decode_refuses_size_bit24 : decode 0xC1000000 = .error .reservedBit := by rfl

/-! ### One word of each row, written out bit by bit from its layout (30_encoding.md R71, R73) -/

theorem test_decode_nop : decode 0b0000_0000000000000000000000000000#32 = .ok .nop := by rfl
theorem test_decode_cfgWr : decode 0b0001_00000000000000000000_00_1_0_1_011#32 = .ok (.cfgWr 3 true false true) := by rfl
theorem test_decode_skipSet : decode 0b0010_0000000000000000000_1_00111111#32 = .ok (.skipSet 0x3F true) := by rfl
theorem test_decode_skipClr : decode 0b0011_0000000000000000000000000000#32 = .ok .skipClr := by rfl
theorem test_decode_encBegin : decode 0b0100_0000000000000000000000000000#32 = .ok .encBegin := by rfl
theorem test_decode_encByte : decode 0b0101_00000000000000000000_11000101#32 = .ok (.encByte 0xC5) := by rfl
theorem test_decode_encEnd : decode 0b0110_0000000000000000000000000000#32 = .ok .encEnd := by rfl
theorem test_decode_decBegin : decode 0b0111_0000000000000000000000000000#32 = .ok .decBegin := by rfl
theorem test_decode_decSym : decode 0b1000_00000000000000000000_10100011#32 = .ok (.decSym 0xA3) := by rfl
theorem test_decode_decEnd : decode 0b1001_0000000000000000000000000000#32 = .ok .decEnd := by rfl
theorem test_decode_abort : decode 0b1010_0000000000000000000000000000#32 = .ok .abort := by rfl
theorem test_decode_clrErr : decode 0b1011_0000000000000000000000000000#32 = .ok .clrErr := by rfl
theorem test_decode_sizeEnc : decode 0b1100_0000_100000000000000000000101#32 = .ok (.sizeEnc 0x800005) := by rfl
theorem test_decode_sizeDec : decode 0b1101_0000_011111111111111111111111#32 = .ok (.sizeDec 0x7FFFFF) := by rfl

/-- A table word reaches the next step as it stands, the bits above it zero. -/
theorem test_tableWord_runs : decodeTableWord 32 0xC0000006 = some (.sizeEnc 6) ∧
    (nextOf (step (State.reset.withFetchWord 32 0xC0000006))).map (fun t => (t.size, t.input)) = some (8, []) := by
  decide

/-! ### Single steps, at most two for each command -/

/-- 43_control.md R170. -/
theorem test_nop : (nextOf (exec .nop State.reset)).map (readPort · 0x01) = some 0x00000600 := by decide

/-- 43_control.md R171: base32, upper, pad, not strict. -/
theorem test_cfgWr : (nextOf (exec (.cfgWr 2 true true false) State.reset)).map
    (fun t => (readPort t 0x00, readPort t 0x01)) = some (0x1A, 0x00000500) := by decide

/-- 60_exceptions.md R201: SEQUENCE in ENC, CFG as before. -/
theorem test_cfgWr_in_frame : (nextOf (exec (.cfgWr 2 true true false) encAfterF)).map
    (fun t => (readPort t 0x00, readPort t 0x01)) = some (0x1C, 0x00000621) := by decide

/-- 43_control.md R172: '?' is bit 31 of SKIP word 1. -/
theorem test_skipSet : (nextOf (exec (.skipSet 0x3F true) State.reset)).map
    (fun t => (readPort t 0x10, readPort t 0x11)) = some (0, 0x80000000) := by decide

/-- 43_control.md R172 with V = 0: bit 255, the last. -/
theorem test_skipSet_clears : (nextOf (exec (.skipSet 0xFF false) { State.reset with skip := BitVec.allOnes 256 })).map
    (fun t => (readPort t 0x16, readPort t 0x17)) = some (0xFFFFFFFF, 0x7FFFFFFF) := by decide

/-- 43_control.md R173. -/
theorem test_skipClr : (nextOf (exec .skipClr { State.reset with skip := BitVec.twoPow 256 0x3F })).map
    (readPort · 0x11) = some 0 := by decide

/-- 41_encoder.md R121. -/
theorem test_encBegin : (nextOf (exec .encBegin State.reset)).map (readPort · 0x01) = some 0x00000601 := by decide

/-- 41_encoder.md R122: 0x66 is 25, which is Z, and leaves the bits 10. -/
theorem test_encByte : (nextOf (exec (.encByte 0x66) (modeState .enc))).map
    (fun t => (t.out, t.acc, t.bits, t.incnt, t.outcnt)) = some ([0x5A], 2, 2, 1, 1) := by decide

/-- 95_test_vectors.md section 1.1, S4: the bits 10 before 0x6F are 38, which is m, and leave 1111. -/
theorem test_encByte_second : (nextOf (exec (.encByte 0x6F) encAfterF)).map
    (fun t => (t.out, t.acc, t.bits, t.incnt, t.outcnt)) = some ([0x5A, 0x6D], 15, 4, 2, 2) := by decide

/-- 41_encoder.md R123: g, then two pads. -/
theorem test_encEnd : (nextOf (exec .encEnd encAfterF)).map
    (fun t => (t.out, t.outcnt, readPort t 0x01)) = some ([0x5A, 0x67, 0x3D, 0x3D], 4, 0x640) := by decide

/-- 95_test_vectors.md section 1, S1: an empty frame emits nothing. -/
theorem test_encEnd_empty : (nextOf (exec .encEnd (modeState .enc))).map
    (fun t => (t.out, readPort t 0x01)) = some ([], 0x640) := by decide

/-- 42_decoder.md R141. -/
theorem test_decBegin : (nextOf (exec .decBegin State.reset)).map (readPort · 0x01) = some 0x00000602 := by decide

/-- 42_decoder.md R142: g after Z emits 0x66. -/
theorem test_decSym : (nextOf (exec (.decSym 0x67) decAfterZ)).map
    (fun t => (t.out, t.acc, t.bits, t.datacnt)) = some ([0x66], 0, 4, 2) := by decide

/-- 42_decoder.md R146: data after a pad fails at the data symbol's position. -/
theorem test_decSym_after_pad : (nextOf (exec (.decSym 0x41) { decAfterZ with padcnt := 1 })).map
    (fun t => (t.mode, t.err, t.errPos, t.incnt, t.datacnt, t.acc)) =
      some (.halt, some .invalidChar, 1, 2, 1, 25) := by decide

/-- 95_test_vectors.md section 1, S8: base64 "A" is too short. -/
theorem test_decEnd : (nextOf (exec .decEnd { State.reset with mode := .dec, bits := 6, incnt := 1, datacnt := 1 })).map
    (fun t => (readPort t 0x01, t.errPos, t.done)) = some (0x00000608, 1, false) := by decide

/-- 42_decoder.md R148 in HALT: the verdict stays. -/
theorem test_decEnd_halt : (nextOf (exec .decEnd halted)).map
    (fun t => (readPort t 0x01, t.errPos)) = some (0x00000604, 2) := by decide

/-- 43_control.md R174. -/
theorem test_abort : (nextOf (exec .abort encAfterF)).map
    (fun t => (t.out, t.mode, t.done, t.outcnt, t.acc, t.bits)) = some ([0x5A], .idle, false, 1, 0, 0) := by decide

/-- 43_control.md R175: the decode verdict stays. -/
theorem test_clrErr : (nextOf (exec .clrErr { halted with cmdErr := some .sequence })).map (readPort · 0x01) =
    some 0x00000607 := by decide

/-- 44_sizing.md R190 at its largest result: base2. -/
theorem test_sizeEnc : (nextOf (exec (.sizeEnc 0xFFFFFF) { State.reset with cfg := ⟨.base2, true, true, false⟩ })).map
    (·.size) = some 134217720 := by decide

/-- 44_sizing.md R191 at its largest result: base64. -/
theorem test_sizeDec : (nextOf (exec (.sizeDec 0xFFFFFF) State.reset)).map (·.size) = some 12582911 := by decide

/-! ### The parameter, the word check before the mode check, the reset -/

/-- 40_alphabet.md R102, condition 4: a pad that is a data symbol is refused. -/
theorem test_rom_refuses_pad_collision :
    (AlphabetRom.ofData { defaultRomData with base64 := ⟨defaultBase64.up, none, some 0x41⟩ }).isSome = false := by
  decide +kernel

/-- 40_alphabet.md R102, condition 5: no pad at width 4. -/
theorem test_rom_refuses_pad_width4 :
    (AlphabetRom.ofData { defaultRomData with base16 := { defaultBase16 with pad := some 0x3D } }).isSome = false := by
  decide +kernel

/-- 40_alphabet.md R102, condition 2: two equal symbols are refused. -/
theorem test_rom_refuses_equal_symbols :
    (AlphabetRom.ofData { defaultRomData with base2 := ⟨[0x30, 0x30], none, none⟩ }).isSome = false := by
  decide +kernel

/-- 40_alphabet.md R102, condition 3: a lower-case variant of another value's symbol is refused. -/
theorem test_rom_refuses_cross_case :
    (AlphabetRom.ofData { defaultRomData with base2 := ⟨[0x41, 0x42], some [0x61, 0x41], none⟩ }).isSome = false := by
  decide +kernel

/-- 60_exceptions.md R209: an illegal word in HALT is ILLEGAL. -/
theorem test_illegal_in_halt : (nextOf (step { halted with input := [.command 0x80000100] })).map
    (fun t => (readPort t 0x01, t.incnt)) = some (0x617, 3) := by decide

/-- 70_reset_and_hazards.md R230, R231: the reset wins over the command. -/
theorem test_reset_wins : (nextOf (step { encAfterF with input := [.commandWithReset 0x60000000] })).map
    (fun t => (t.out, readPort t 0x01, t.outcnt, t.bits)) = some ([0x5A], 0x600, 0, 0) := by decide

/-- 30_encoding.md R79, R80: a line with a quoted string and a comment. -/
theorem test_assemble : assemble "CFG base32, lower ; c\nDECODE \"A\\n\"" =
    .ok [0x10000012, 0x70000000, 0x80000041, 0x8000000A, 0x90000000] := by decide +kernel

/-! ### Witnesses: a concrete case for the hypotheses of each statement, clause by clause -/

theorem test_witness_StepRunsTheDecodedCommand :
    (presented [.command 0x5000006F, .reset]).input = .command 0x5000006F :: [.reset] ∧
    decode 0x5000006F = .ok (.encByte 0x6F) ∧
    0xD0FFFFFF < 2 ^ 32 ∧ decodeTableWord 32 0xD0FFFFFF = some (.sizeDec 0xFFFFFF) := by
  refine ⟨rfl, rfl, by decide, rfl⟩

theorem test_witness_IllegalWordOnlyRaisesIllegal :
    (opcodeRows.all fun r => 0x00000001#32 &&& r.2 != r.1) = true ∧
    0xE ≤ (0xE0000000#32).toNat / 2 ^ 28 ∧ 0xE ≤ (0xFFFFFFFF#32).toNat / 2 ^ 28 ∧
    (0x10000006#32 &&& 0xFFFFFFC0 = 0x10000000 ∧ 6 ≤ (0x10000006#32).toNat % 8) ∧
    (0x1000003F#32 &&& 0xFFFFFFC0 = 0x10000000 ∧ 6 ≤ (0x1000003F#32).toNat % 8) ∧
    (modePresented .halt [.command 0x00000001]).input = .command 0x00000001 :: [] := by decide

theorem test_witness_DecoderIsTotalAndUnambiguous :
    opcodeRows[2]? = some (0x20000000, 0xFFFFFE00) ∧ 0x200001FF#32 &&& 0xFFFFFE00 = 0x20000000 := by decide

theorem test_witness_DecodeOfEncodeIsTheCommand : (Instr.cfgWr 5 true false true).wellFormed = true := by decide

theorem test_witness_EncodeOfDecodeIsTheWord : decode 0x100000F5#32 = .error .reservedBit ∧
    decode 0x10000035 = .ok (.cfgWr 5 false true true) := by exact ⟨rfl, rfl⟩

theorem test_witness_PresentedCommandsRunInOrder :
    ∀ i ∈ [Instr.encBegin, .encByte 0xFF, .cfgWr 0 false false false, .encEnd], i.wellFormed = true := by decide

/-- 30_encoding.md R80: CFG base64 is the reset value; a full option list; UNSKIP of the last byte value. -/
theorem test_assemble_cfg_unskip :
    statementWords "CFG" [.name "base64"] = .ok [0x1000001C] ∧
    statementWords "CFG" [.name "base32", .name "lower", .name "nopad", .name "strict"] = .ok [0x10000022] ∧
    statementWords "UNSKIP" [.number 0xFF] = .ok [0x200000FF] := by decide +kernel

theorem test_witness_AssemblerExpandsAndRefuses :
    ("base64url", 5) ∈ [("base2", 0), ("base16", 1), ("base32", 2), ("base32hex", 3), ("base64", 4), ("base64url", 5)] ∧
    256 ≤ 256 ∧ 2 ^ 24 ≤ 16777216 ∧ (256 ≤ 256 ∨ 2 ≤ 0) ∧
    (256 ≤ 0 ∨ 2 ≤ 2) := by decide

theorem test_witness_ModeLegalityTable :
    (Instr.decEnd.wellFormed = true ∧ halted.mode ∈ okModes .decEnd) ∧ halted.mode = .halt ∧
    ((Instr.decSym 0x41).wellFormed = true ∧ encAfterF.mode ∉ okModes (.decSym 0x41) ∧ encAfterF.mode ≠ .halt) ∧
    (Instr.encEnd.wellFormed = true ∧ halted.mode ∉ okModes .encEnd) := by decide

theorem test_witness_CommandErrorIsFirstAndAlone :
    (modePresented .enc [.command 0x10000018]).input = .command 0x10000018 :: [] ∧
    (nextOf (step (modePresented .enc [.command 0x10000018]))).map (·.cmdErr) = some (some .sequence) := by decide

theorem test_witness_HaltDropsEveryCharacter : halted.mode = .halt := by decide

theorem test_witness_HaltEndsOnlyByEndAbortOrReset :
    (nextOf (step { halted with input := [.command 0xA0000000] })).map (fun t => (t.mode, t.errPos)) = some (.idle, 2) ∧
    (nextOf (step { halted with input := [.command 0x60000000] })).map (·.mode) = some .halt ∧
    (nextOf (step { halted with cmdErr := some .illegal, input := [.command 0xB0000000] })).map (·.cmdErr) =
      some none := by decide

theorem test_witness_ModeChangesOnlyByFrameEvents :
    (nextOf (step { decAfterZ with input := [.command (encode (.decSym 0x21))] })).map (·.mode) = some .halt ∧
    (nextOf (step (presented [.command 0x70000000]))).map (·.mode) = some .dec := by decide

theorem test_witness_ConfigurationIsFixedInsideAFrame :
    (nextOf (exec (.cfgWr 0 false false true) State.reset)).map (fun t => decide (t.cfg ≠ State.reset.cfg)) = some true ∧
    (nextOf (exec (.skipSet 0 true) State.reset)).map (fun t => decide (t.skip ≠ State.reset.skip)) = some true ∧
    (nextOf (exec (.skipSet 0 true) decAfterZ)).map (fun t => decide (t.skip = 0)) = some true ∧
    decAfterZ.mode ≠ .idle := by decide

theorem test_witness_StatusRegistersHaveTheirWritersOnly :
    (nextOf (exec (.sizeDec 8) State.reset)).map (·.size) = some 6 ∧
    (nextOf (exec .encEnd encAfterF)).map (·.done) = some true ∧
    (nextOf (exec .decBegin { State.reset with done := true })).map (·.done) = some false ∧
    (nextOf (exec .decEnd decAfterZ)).map (·.err) = some (some .invalidLength) ∧
    (nextOf (exec (.decSym 0x21) decAfterZ)).map (·.errPos) = some 1 ∧
    (nextOf (exec (.decSym 0x3D) decAfterZ)).map (·.padcnt) = some 1 := by decide

theorem test_witness_OutIsAppendOnly :
    (nextOf (step { encAfterF with input := [.command 0x60000000] })).map (·.out) = some [0x5A, 0x67, 0x3D, 0x3D] ∧
    (nextOf (exec (.decSym 0x67) decAfterZ)).map (fun t => (t.out, t.outcnt)) = some ([] ++ [0x66], 0 + 1) := by decide

theorem test_witness_OneCommandEmitsAtMostEight : encAfterF.Inv ∧ encAfterF.Tally ∧ decAfterZ.Inv ∧ decAfterZ.Tally ∧
    (nextOf (exec .encEnd encAfterF)).map (·.out.length) = some 4 := by decide

theorem test_witness_ReadPortMap : (0 < 8 ∧ 0 < 32) ∧ (7 < 8 ∧ 31 < 32) ∧
    (0x0A ≤ (0x0A#8).toNat ∧ (0x0A#8).toNat ≤ 0x0F) ∧ (0x0A ≤ (0x0F#8).toNat ∧ (0x0F#8).toNat ≤ 0x0F) ∧
    0x18 ≤ (0x18#8).toNat ∧ 0x18 ≤ (0xFF#8).toNat := by decide

theorem test_witness_StepKeepsTheInvariants : encAfterF.Inv ∧ halted.Inv ∧ decAfterZ.Inv ∧
    (nextOf (step { encAfterF with input := [.command 0x5000006F] })).map (·.bits) = some 4 := by decide

theorem test_witness_StepKeepsTheTally : encAfterF.Inv ∧ encAfterF.Tally ∧ decAfterZ.Inv ∧ decAfterZ.Tally ∧
    (nextOf (step { decAfterZ with input := [.command 0x80000067] })).map (·.outcnt) = some 1 := by decide

theorem test_witness_StepKeepsNoVerdictYet : encAfterF.NoVerdictYet ∧ halted.NoVerdictYet ∧
    (nextOf (step { encAfterF with input := [.command 0x60000000] })).map (·.done) = some true := by decide

theorem test_witness_ResetEventSetsEveryRegister :
    ({ encAfterF with input := [.reset] } : State).input = .reset :: [] := by decide

theorem test_witness_ResetWinsOverACommand :
    ({ encAfterF with input := [.commandWithReset 0xFFFFFFFF] } : State).input = .commandWithReset 0xFFFFFFFF :: [] := by
  decide

theorem test_witness_ReadsAfterAReset : ({ encAfterF with input := [.reset] } : State).input = .reset :: [] ∧
    (nextOf (step { encAfterF with input := [.reset] })).map
      (fun t => (readPort t 0x00, readPort t 0x01, readPort t 0x07, readPort t 0xFF)) = some (0x1C, 0x600, 0, 0) := by
  decide

/-- The premises of NopDoesNothing, CfgWrWritesTheConfiguration, SkipSetWritesOneBit, SkipClrClearsTheMask,
AbortClosesAnyFrame, ClrErrClearsTheCommandError, EncBeginOpensAnEncodeFrame, EncByteEmitsWholeGroups,
EncodeFrameIsTheBitStringEncoding, DecBeginOpensADecodeFrame, SizeEncComputesTheBound and SizeDecComputesTheBound: a state
of each mode, and boundary words of each opcode that are illegal. -/
theorem test_witness_command_statements : State.reset.mode = .idle ∧ encAfterF.mode = .enc ∧ encAfterF.mode ≠ .idle ∧
    decAfterZ.mode = .dec ∧ halted.mode = .halt ∧ (State.reset.Inv ∧ State.reset.mode = .idle) ∧
    (1#32).toNat / 2 ^ 28 = 0x0 ∧ (0x0FFFFFFF#32).toNat / 2 ^ 28 = 0x0 ∧
    ((0x10000040#32).toNat / 2 ^ 28 = 0x1 ∧ 64 ≤ (0x10000040#32).toNat % 2 ^ 28) ∧
    ((0x10000007#32).toNat / 2 ^ 28 = 0x1 ∧ 6 ≤ (0x10000007#32).toNat % 8) ∧
    ((0x20000200#32).toNat / 2 ^ 28 = 0x2 ∧ 512 ≤ (0x20000200#32).toNat % 2 ^ 28) ∧
    (0x30000001#32).toNat / 2 ^ 28 = 0x3 ∧ (0xA8000000#32).toNat / 2 ^ 28 = 0xA ∧
    (0xBFFFFFFF#32).toNat / 2 ^ 28 = 0xB ∧
    ((0xC1000000#32).toNat / 2 ^ 28 = 0xC ∧ 2 ^ 24 ≤ (0xC1000000#32).toNat % 2 ^ 28) ∧
    ((0xDFFFFFFF#32).toNat / 2 ^ 28 = 0xD ∧ 2 ^ 24 ≤ (0xDFFFFFFF#32).toNat % 2 ^ 28) := by decide

/-- EncEndFlushesAndPads: a pad that applies, and each way none does. -/
theorem test_witness_EncEndFlushesAndPads :
    (encAfterF.cfg.padEn = true ∧ encAfterF.k = 6 ∧ encAfterF.rom.padSym encAfterF.cfg.alpha = some 0x3D) ∧
    ({ encAfterF with cfg := ⟨.base64, true, false, false⟩ } : State).cfg.padEn = false ∧
    ({ encAfterF with cfg := ⟨.base16, true, true, false⟩ } : State).k = 4 ∧
    defaultRom.padSym .base2 = none := by decide

/-- DecSymTakesOneCharacter, InvalidCharHasExactlyTwoCauses: each class, with and without a pad before. -/
theorem test_witness_DecSymTakesOneCharacter :
    ({ decAfterZ with skip := BitVec.twoPow 256 0x0A } : State).skip.getLsbD (0x0A#8).toNat = true ∧
    (decAfterZ.skip.getLsbD (0x21#8).toNat = false ∧ decAfterZ.rom.rlut .base64 0x21 = .invalid) ∧
    decAfterZ.rom.rlut .base64 0x3D = .pad ∧ decAfterZ.rom.rlut .base64 0x2F = .value 63 ∧
    0 < ({ decAfterZ with padcnt := 1 } : State).padcnt.toNat ∧
    (decAfterZ.padcnt.toNat = 0 ∧ 8 ≤ decAfterZ.bits.toNat + decAfterZ.k) ∧
    (modeState .dec).bits.toNat + (modeState .dec).k < 8 := by decide

theorem test_witness_InvalidCharHasExactlyTwoCauses : State.reset.mode = .idle ∧
    (nextOf (runAll (.decBegin :: [0x41, 0x41].map .decSym) State.reset)).map (fun t => (t.mode, t.incnt)) =
      some (.dec, 2) := by decide

/-- DecEndValidatesAndCloses: the checks pass with a right pad count; each of the three fails alone. -/
theorem test_witness_DecEndValidatesAndCloses :
    (∃ s : State, s.mode = .dec ∧ s.bits.toNat < s.k ∧ s.padcnt.toNat =
      (8 / Nat.gcd 8 s.k - s.datacnt.toNat % (8 / Nat.gcd 8 s.k)) % (8 / Nat.gcd 8 s.k) ∧ s.padcnt.toNat = 2 ∧
      s.cfg.strict = true ∧ s.acc = 0) ∧
    (decAfterZ.mode = .dec ∧ decAfterZ.k ≤ decAfterZ.bits.toNat) ∧
    (∃ s : State, s.mode = .dec ∧ s.bits.toNat < s.k ∧ s.padcnt.toNat ≠ 0 ∧ s.padcnt.toNat ≠
      (8 / Nat.gcd 8 s.k - s.datacnt.toNat % (8 / Nat.gcd 8 s.k)) % (8 / Nat.gcd 8 s.k)) ∧
    (∃ s : State, s.mode = .dec ∧ s.bits.toNat < s.k ∧ s.padcnt.toNat = 0 ∧ s.cfg.strict = true ∧ s.acc ≠ 0) := by
  refine ⟨⟨{ decAfterZ with bits := 4, acc := 0, datacnt := 2, padcnt := 2, cfg := ⟨.base64, true, true, true⟩ }, ?_⟩,
    ?_, ⟨{ decAfterZ with bits := 4, datacnt := 2, padcnt := 1 }, ?_⟩,
    ⟨{ decAfterZ with bits := 4, acc := 1, datacnt := 2, cfg := ⟨.base64, true, true, true⟩ }, ?_⟩⟩ <;> decide

theorem test_witness_SaturatedPadCountNeverPasses :
    ({ decAfterZ with padcnt := BitVec.allOnes 32 } : State).mode = .dec ∧
    (nextOf (exec (.decSym 0x3D) { decAfterZ with padcnt := BitVec.allOnes 32 })).map (·.padcnt) =
      some (BitVec.allOnes 32) := by decide

theorem test_witness_LegalResiduesByWidth : 15 % 8 ∈ [0, 2, 4, 5, 7] ∧ 8 % 8 ∈ [0, 2, 4, 5, 7] ∧ 7 % 4 ∈ [0, 2, 3] := by
  decide

/-- RomIsTakenExactlyWhenWellFormed, RlutInvertsTheForwardTables, DefaultCaseVariantsAndPads: the case premises. -/
theorem test_witness_rom_statements : (defaultRomData.entry .base16).low.isSome = true ∧
    (defaultRomData.entry .base32).pad = some 0x3D ∧ defaultRom.fold .base16 = true ∧ 15 < 2 ^ widthOf .base16 ∧
    defaultRom.fwd .base16 false 15 = 0x66 ∧ defaultRom.fold .base64 = false := by decide

theorem test_witness_EncodeFrameDependsOnBytesAndCfgAlone :
    ∃ s s' : State, s.mode = .idle ∧ s'.mode = .idle ∧ s'.cfg = s.cfg ∧ s'.rom = s.rom ∧ s'.skip ≠ s.skip ∧
      s'.out ≠ s.out :=
  ⟨State.reset, { State.reset with skip := 1, out := [0x5A] }, by decide⟩

theorem test_witness_EncodeFrameLengthIsTheSizeBound : State.reset.mode = .idle ∧ State.reset.cfg.padEn = true ∧
    State.reset.k = 6 ∧ State.reset.rom.padSym State.reset.cfg.alpha ≠ none := by decide

/-- 95_test_vectors.md section 1, S2, decoded: characters that are two values and two pads, with a skipped one between. -/
theorem test_witness_DecodeFrameUnpacksTheBitString :
    ∃ s : State, s.mode = .idle ∧ Suffixed s [0x5A, 0x0A, 0x67, 0x3D, 0x3D] [25, 32] 2 ∧
      wholeBytes s.k [25, 32] = [0x66] ∧ LengthValid s [25, 32] 2 ∧ ¬LengthValid s [25, 32] 1 :=
  ⟨{ State.reset with skip := BitVec.twoPow 256 0x0A }, by unfold LengthValid; decide⟩

theorem test_witness_DecodeFrameFailsAtTheFirstBadCharacter :
    State.reset.mode = .idle ∧ Suffixed State.reset [0x5A, 0x67, 0x3D] [25, 32] 1 ∧ State.reset.skips 0x41 = false ∧
    (0 < 1 ∧ State.reset.classify 0x41 = .value 0) ∧
    (State.reset.skips 0x21 = false ∧ State.reset.classify 0x21 = .invalid) := by decide

theorem test_witness_DecodeOfEncodeFrameIsTheBytes : State.reset.mode = .idle ∧
    (∀ u v, v < 2 ^ State.reset.k → State.reset.skips (State.reset.rom.fwd State.reset.cfg.alpha u v) = false) ∧
    (∀ p, State.reset.rom.padSym State.reset.cfg.alpha = some p → State.reset.skips p = false) := by
  refine ⟨rfl, ?_, ?_⟩ <;> intros <;> simp [State.skips, State.reset]

theorem test_witness_LetterCaseDoesNotMatterWhenFolding :
    ∃ s : State, s.mode = .idle ∧ s.rom = defaultRom ∧ s.cfg.alpha = .base16 ∧
      (∀ c : Byte, s.skips (lowerVariant c) = s.skips c) ∧ [0x46, 0x66].map lowerVariant = [0x66, 0x46].map lowerVariant :=
  ⟨{ State.reset with cfg := ⟨.base16, true, true, false⟩ }, rfl, rfl, rfl, by simp [State.skips, State.reset], by decide⟩

theorem test_witness_DecodeFrameStaysWithinTheSizeBound : State.reset.mode = .idle ∧
    maxDecodeSize State.reset.k 5 = 3 := by decide

end Sys2Proof.Machine.Tests
end

section
/-! The STATUS word as a sum of its disjoint fields, and the reset event (10_state.md R41, R46;
70_reset_and_hazards.md R230). -/

namespace Sys2Proof.Machine

theorem modeCode_lt_four (m : Mode) : modeCode m < 4 := by cases m <;> decide

/-- ERR's code 3 is never produced (10_state.md R35). -/
theorem errCode_le_two : ∀ e : Option DecodeError, errCode e ≤ 2
  | none | some .invalidChar | some .invalidLength => by decide

/-- CMDERR's code 3 is never produced (10_state.md R37). -/
theorem cmdErrCode_le_two : ∀ e : Option CommandError, cmdErrCode e ≤ 2
  | none | some .illegal | some .sequence => by decide

theorem fieldBit_eq_shiftLeft (p : Nat) (b : Bool) : fieldBit p b = b.toNat <<< p := by
  cases b <;> simp [fieldBit, Nat.shiftLeft_eq]

/-- Or-ing a field in at bit p, above all the bits held so far, adds it. -/
theorem or_field_eq_add {low p : Nat} (h : low < 2 ^ p) (field : Nat) :
    low ||| field <<< p = low + 2 ^ p * field := by
  rw [Nat.or_comm, ← Nat.shiftLeft_add_eq_or_of_lt h, Nat.shiftLeft_eq, Nat.add_comm, Nat.mul_comm]

/-- STATUS adds up its fields, which do not overlap: each one ends below the next one's place (10_state.md R41). -/
theorem State.status_toNat (s : State) : s.status.toNat =
    modeCode s.mode + 4 * errCode s.err + 16 * cmdErrCode s.cmdErr + 64 * s.done.toNat + 256 * s.k := by
  have hmode := modeCode_lt_four s.mode
  have herr := errCode_le_two s.err
  have hcmd := cmdErrCode_le_two s.cmdErr
  have hdone := s.done.toNat_le
  have hk : s.k ≤ 6 := by have := s.k_cases; omega
  rw [State.status, fieldBit_eq_shiftLeft, or_field_eq_add (p := 2) (by omega), or_field_eq_add (p := 4) (by omega),
    or_field_eq_add (p := 6) (by omega), or_field_eq_add (p := 8) (by omega), BitVec.toNat_ofNat]
  omega

theorem readPort_status (s : State) : readPort s 0x01 = s.status := rfl

/-- Settles O19: the fields of STATUS are disjoint, so or-ing them is adding them. -/
theorem statusWordHasItsFields : Obligations.StatusWordHasItsFields := by
  unfold Obligations.StatusWordHasItsFields
  refine ⟨fun s => ?_, by decide⟩
  rw [readPort_status, s.status_toNat]
  rfl

/-- Settles O26: a step on the reset event is resetEvent, which takes every register from the reset state and keeps OUT,
the ROM and the events that wait. -/
theorem resetEventSetsEveryRegister : Obligations.ResetEventSetsEveryRegister :=
  ⟨step_reset, by decide⟩

end Sys2Proof.Machine
end

section
/-! The register read port, address by address: the CFG byte as a sum of its disjoint fields, the SKIP words and the
unlisted addresses (10_state.md R22 to R27, R40; 20_memory.md R51, R52). -/

namespace Sys2Proof.Machine

/-- ALPHA's codes 6 and 7 are never produced (10_state.md R23). -/
theorem alphabetCode_le_five (a : Alphabet) : (alphabetCode a).toNat ≤ 5 := by cases a <;> decide

theorem fieldBit_eq_mul (p : Nat) (b : Bool) : fieldBit p b = 2 ^ p * b.toNat := by
  rw [fieldBit_eq_shiftLeft, Nat.shiftLeft_eq, Nat.mul_comm]

/-- CFG adds up its fields: the largest sum is 61, so the 8-bit register cuts nothing off (10_state.md R22, R27). -/
theorem cfgByte_toNat (c : Cfg) : (cfgByte c).toNat =
    (alphabetCode c.alpha).toNat + 8 * c.ucase.toNat + 16 * c.padEn.toNat + 32 * c.strict.toNat := by
  have halpha := alphabetCode_le_five c.alpha
  have hucase := c.ucase.toNat_le
  have hpad := c.padEn.toNat_le
  have hstrict := c.strict.toNat_le
  rw [cfgByte, BitVec.toNat_ofNat, fieldBit_eq_mul, fieldBit_eq_mul, fieldBit_eq_mul]
  omega

/-- CFG reads zero-extended to the 32-bit word (20_memory.md R51). -/
theorem readPort_cfg_toNat (s : State) : (readPort s 0x00).toNat = (cfgByte s.cfg).toNat :=
  BitVec.toNat_setWidth_of_le (by decide)

/-- From address 0x0A up the port shows the SKIP words and nothing else (20_memory.md R51, R52). -/
theorem readPort_of_ten_le (s : State) {a : BitVec 8} (h : 0x0A ≤ a.toNat) :
    readPort s a =
      if 0x10 ≤ a.toNat ∧ a.toNat < 0x18 then s.skip.extractLsb' (32 * (a.toNat - 0x10)) 32 else 0 := by
  unfold readPort
  split
  case h_11 => rfl
  all_goals omega

theorem readPort_skipWord (s : State) {i : Nat} (hi : i < 8) :
    readPort s (BitVec.ofNat 8 (0x10 + i)) = s.skip.extractLsb' (32 * i) 32 := by
  have haddr : (BitVec.ofNat 8 (0x10 + i)).toNat = 0x10 + i := by rw [BitVec.toNat_ofNat]; omega
  rw [readPort_of_ten_le s (by omega), haddr, if_pos (by omega), Nat.add_sub_cancel_left]

/-- Bit j of SKIP word i is SKIP[32*i + j] (20_memory.md R51). -/
theorem readPort_skipWord_getLsbD (s : State) {i j : Nat} (hi : i < 8) (hj : j < 32) :
    (readPort s (BitVec.ofNat 8 (0x10 + i))).getLsbD j = s.skip.getLsbD (32 * i + j) := by
  rw [readPort_skipWord s hi, BitVec.getLsbD_extractLsb', decide_eq_true hj, Bool.true_and]

theorem readPort_unlisted (s : State) {a : BitVec 8}
    (h : 0x0A ≤ a.toNat ∧ a.toNat ≤ 0x0F ∨ 0x18 ≤ a.toNat) : readPort s a = 0 := by
  rw [readPort_of_ten_le s (by omega), if_neg (by omega)]

/-- Settles O20: the CFG byte adds up its fields, each address below 0x0A names its register, and from 0x0A up only the
eight SKIP words are listed. -/
theorem readPortMap : Obligations.ReadPortMap := by
  unfold Obligations.ReadPortMap
  intro s
  refine ⟨?cfg, readPort_status s, rfl, rfl, rfl, rfl, rfl, rfl, rfl, rfl, ?skip, ?unlisted⟩
  case cfg =>
    rw [readPort_cfg_toNat, cfgByte_toNat]
    cases s.cfg.alpha <;> rfl
  case skip => exact fun _ _ hi hj => readPort_skipWord_getLsbD s hi hj
  case unlisted => exact fun _ h => readPort_unlisted s h

end Sys2Proof.Machine
end

section
/-! Illegal words: a word the decoder refuses raises ILLEGAL and does nothing else, and the decoder refuses each kind of
word that 30_encoding.md R74 to R76 calls illegal. -/

namespace Sys2Proof

/-- A row gives a command only to the words that match it (30_encoding.md R73). -/
theorem exists_row_of_rowDecode_ok {w m k : Word} {i j : Instr} (hrow : (m, k) ∈ opcodeRows)
    (h : rowDecode w m k j = .ok i) : ∃ r ∈ opcodeRows, w &&& r.2 = r.1 := by
  rcases rowDecode_cases w m k j with ⟨hmatch, -⟩ | ⟨-, herr⟩
  · exact ⟨(m, k), hrow, hmatch⟩
  · rw [herr] at h
    cases h

/-- CFG_WR's value check only refuses: what passes it, its row gave (30_encoding.md R76). -/
theorem rowDecode_ok_of_bind_alphaDecode_ok {w m k : Word} {i j : Instr}
    (h : (rowDecode w m k j).bind alphaDecode = .ok i) : rowDecode w m k j = .ok j := by
  rcases rowDecode_cases w m k j with ⟨-, hok⟩ | ⟨-, herr⟩
  · exact hok
  · rw [herr] at h
    cases h

/-- A legal word matches a row of the opcode map: each arm of the decoder asks its own row (30_encoding.md R73, R74). -/
theorem exists_row_of_decode_ok {w : Word} {i : Instr} (h : decode w = .ok i) :
    ∃ r ∈ opcodeRows, w &&& r.2 = r.1 := by
  unfold decode at h
  split at h
  case h_2 => exact exists_row_of_rowDecode_ok (by decide) (rowDecode_ok_of_bind_alphaDecode_ok h)
  case h_15 => cases h
  all_goals exact exists_row_of_rowDecode_ok (by decide) h

theorem decode_error_of_no_row {w : Word} (h : ∀ r ∈ opcodeRows, w &&& r.2 ≠ r.1) : ∃ e, decode w = .error e := by
  cases hdec : decode w with
  | error e => exact ⟨e, rfl⟩
  | ok i =>
    obtain ⟨r, hr, hmatch⟩ := exists_row_of_decode_ok hdec
    exact absurd hmatch (h r hr)

/-- OP 0xE and 0xF (30_encoding.md R75). -/
theorem decode_reservedOpcode {w : Word} (h : 0xE ≤ w.toNat / 2 ^ 28) : decode w = .error .reservedOpcode := by
  have hlt := w.isLt
  have hop : (opField w).toNat = 0xE ∨ (opField w).toNat = 0xF := by rw [opField_toNat]; omega
  rcases hop with hop | hop <;> simp only [decode, hop]

/-- CFG_WR with ALPHA 6 or 7: its row matches, its value check refuses (30_encoding.md R76). -/
theorem decode_alphabetCode {w : Word} (hrow : w &&& 0xFFFFFFC0 = 0x10000000) (halpha : 6 ≤ w.toNat % 8) :
    decode w = .error .alphabetCode := by
  have hnum : w.toNat / 64 * 64 = 0x10000000 := (row_match_C w _).1 hrow
  have hop : (opField w).toNat = 0x1 := by rw [opField_toNat]; omega
  have hill : ¬ (alphaField w).toNat < Config.alphabetCount := by rw [alphaField_toNat]; exact Nat.not_lt.2 halpha
  simp only [decode, hop, rowDecode, if_pos hrow, Except.bind, alphaDecode, Instr.wellFormed, decide_eq_false hill,
    Bool.false_eq_true, if_false]

namespace Machine

/-- A word the decoder refuses, for whatever reason, has the one effect of R74. -/
theorem raisesIllegal_of_decode_error {w : Word} {e : IllegalWord} (h : decode w = .error e) : RaisesIllegal w := by
  intro s rest hinput
  rw [step_command s w rest hinput, h]
  exact congrArg Host.Outcome.next (State.raiseCmdError_eq _ _)

/-- Settles O3: the decoder refuses a word that matches no row, one of OP 0xE or 0xF, and CFG_WR with ALPHA 6 or 7, and
a refused word raises ILLEGAL alone. -/
theorem illegalWordOnlyRaisesIllegal : Obligations.IllegalWordOnlyRaisesIllegal := by
  unfold Obligations.IllegalWordOnlyRaisesIllegal
  refine ⟨fun w hnoRow => ?noRow, fun w hop => ?reservedOpcode, fun w hrow halpha => ?alphabetCode⟩
  case noRow =>
    obtain ⟨_, hrefused⟩ := decode_error_of_no_row hnoRow
    exact raisesIllegal_of_decode_error hrefused
  case reservedOpcode => exact raisesIllegal_of_decode_error (decode_reservedOpcode hop)
  case alphabetCode => exact raisesIllegal_of_decode_error (decode_alphabetCode hrow halpha)

end Machine

end Sys2Proof
end

section
/-! The alphabet ROM: the well-formedness check decides the five conditions of 40_alphabet.md R102, and under them the
reverse lookup inverts the forward tables (R112, R113). -/

namespace Sys2Proof.Machine

theorem allDistinct_iff_nodup (l : List Byte) : allDistinct l = true ↔ l.Nodup := by
  induction l with
  | nil => simp [allDistinct]
  | cons c cs ih => simp [allDistinct, ih]

theorem crossDistinct_iff (low up : List Byte) : crossDistinct low up = true ↔
    ∀ v w : Nat, v < low.length → v ≠ w → low[v]? ≠ up[w]? := by
  simp only [crossDistinct, List.all_eq_true, List.forall_mem_zipIdx', Bool.or_eq_true, beq_iff_eq, bne_iff_ne]
  refine forall_congr' fun v => ⟨fun h w hv hne heq => ?_, fun h hv w hw => ?_⟩
  · rw [List.getElem?_eq_getElem hv] at heq
    obtain ⟨hw, hsym⟩ := List.getElem?_eq_some_iff.1 heq.symm
    exact (h hv w hw).elim hne (· hsym.symm)
  · refine or_iff_not_imp_left.2 fun hne hsym => h w hv hne ?_
    rw [List.getElem?_eq_getElem hv, List.getElem?_eq_getElem hw, hsym]

theorem lowWellFormed_iff (e : AlphabetEntry) : lowWellFormed e = true ↔
    ∀ low, e.low = some low → low.length = e.up.length ∧ low.Nodup ∧
      ∀ v w : Nat, v < low.length → v ≠ w → low[v]? ≠ e.up[w]? := by
  cases hlow : e.low <;> simp [lowWellFormed, hlow, allDistinct_iff_nodup, crossDistinct_iff, and_assoc]

theorem padWellFormed_iff (k : Nat) (e : AlphabetEntry) : padWellFormed k e = true ↔
    ∀ p, e.pad = some p → padWidth k = true ∧ p ∉ e.up ∧ ∀ low, e.low = some low → p ∉ low := by
  cases hpad : e.pad <;> cases hlow : e.low <;> simp [padWellFormed, hpad, hlow, and_assoc]

/-- The widths without padding are the other two of the four (40_alphabet.md R102, condition 5). -/
theorem padWidth_widthOf_iff (a : Alphabet) : padWidth (widthOf a) = true ↔ ¬(widthOf a = 1 ∨ widthOf a = 4) := by
  cases a <;> decide

/-- The conditions of 40_alphabet.md R102 on one alphabet's entry, save that K(a) is one of the four widths, which holds
of every alphabet. -/
structure AlphabetEntry.Admitted (a : Alphabet) (e : AlphabetEntry) : Prop where
  up_length : e.up.length = 2 ^ widthOf a
  up_nodup : e.up.Nodup
  low : ∀ low, e.low = some low → low.length = e.up.length ∧ low.Nodup ∧
    ∀ v w : Nat, v < low.length → v ≠ w → low[v]? ≠ e.up[w]?
  pad : ∀ p, e.pad = some p → p ∉ e.up ∧ ∀ low, e.low = some low → p ∉ low
  no_pad : widthOf a = 1 ∨ widthOf a = 4 → e.pad = none

theorem AlphabetEntry.wellFormed_iff_admitted (a : Alphabet) (e : AlphabetEntry) :
    e.wellFormed (widthOf a) = true ↔ e.Admitted a := by
  simp only [AlphabetEntry.wellFormed, Bool.and_eq_true, beq_iff_eq, allDistinct_iff_nodup, lowWellFormed_iff,
    padWellFormed_iff, padWidth_widthOf_iff]
  constructor
  · rintro ⟨⟨⟨hlen, hup⟩, hlow⟩, hpad⟩
    exact ⟨hlen, hup, hlow, fun p hp => (hpad p hp).2,
      fun hk => Option.eq_none_iff_forall_ne_some.2 fun p hp => (hpad p hp).1 hk⟩
  · rintro ⟨hlen, hup, hlow, hpad, hnone⟩
    refine ⟨⟨⟨hlen, hup⟩, hlow⟩, fun p hp => ⟨fun hk => ?_, hpad p hp⟩⟩
    rw [hnone hk] at hp
    cases hp

theorem RomData.wellFormed_iff (d : RomData) : d.wellFormed = true ↔ ∀ a, (d.entry a).Admitted a := by
  simp only [← AlphabetEntry.wellFormed_iff_admitted, RomData.wellFormed, List.all_eq_true]
  exact ⟨fun h a => h a (by cases a <;> decide), fun h a _ => h a⟩

theorem AlphabetRom.isSome_ofData_iff (d : RomData) : (AlphabetRom.ofData d).isSome = true ↔ d.wellFormed = true := by
  unfold AlphabetRom.ofData
  split
  case isTrue h => simp [h]
  case isFalse h => simp [h]

/-- Settles O35: the check decides the conditions of R102 entry by entry; K(a) is one of the four widths for every
alphabet. -/
theorem romIsTakenExactlyWhenWellFormed : Obligations.RomIsTakenExactlyWhenWellFormed := by
  unfold Obligations.RomIsTakenExactlyWhenWellFormed
  intro d
  rw [AlphabetRom.isSome_ofData_iff, RomData.wellFormed_iff]
  refine forall_congr' fun a => ⟨?_, ?_⟩
  · rintro ⟨hlen, hup, hlow, hpad, hnone⟩
    exact ⟨⟨hlen, by cases a <;> decide⟩, hup, hlow, hpad, hnone⟩
  · rintro ⟨⟨hlen, -⟩, hup, hlow, hpad, hnone⟩
    exact ⟨hlen, hup, hlow, hpad, hnone⟩

theorem AlphabetRom.entry_admitted (r : AlphabetRom) (a : Alphabet) : (r.data.entry a).Admitted a :=
  (AlphabetEntry.wellFormed_iff_admitted a _).1 (r.entry_wf a)

/-- c is the symbol of value v, in either case (40_alphabet.md R112). -/
def AlphabetEntry.HasSymbol (e : AlphabetEntry) (v : Nat) (c : Byte) : Prop :=
  e.up[v]? = some c ∨ ∃ low, e.low = some low ∧ low[v]? = some c

/-- A byte is the symbol of one value at most (40_alphabet.md R102, conditions 2 and 3; R113). -/
theorem AlphabetEntry.Admitted.hasSymbol_unique {a : Alphabet} {e : AlphabetEntry} (he : e.Admitted a)
    {v w : Nat} {c : Byte} (hv : e.HasSymbol v c) (hw : e.HasSymbol w c) : v = w := by
  have same {l : List Byte} (hl : l.Nodup) {i j : Nat} (hi : l[i]? = some c) (hj : l[j]? = some c) : i = j :=
    (List.getElem?_inj (List.getElem?_eq_some_iff.1 hi).1 hl).1 (hi.trans hj.symm)
  have cross {low : List Byte} (hlow : e.low = some low) {i j : Nat} (hi : low[i]? = some c)
      (hj : e.up[j]? = some c) : i = j := by
    obtain ⟨-, -, hne⟩ := he.low low hlow
    by_contra hij
    exact hne i j (List.getElem?_eq_some_iff.1 hi).1 hij (hi.trans hj.symm)
  rcases hv with hv | ⟨low, hlow, hv⟩ <;> rcases hw with hw | ⟨low', hlow', hw⟩
  · exact same he.up_nodup hv hw
  · exact (cross hlow' hw hv).symm
  · exact cross hlow hv hw
  · obtain rfl : low = low' := Option.some.inj (hlow.symm.trans hlow')
    exact same (he.low low hlow).2.1 hv hw

/-- The pad symbol is no data symbol (40_alphabet.md R102, condition 4). -/
theorem AlphabetEntry.Admitted.not_hasSymbol_of_pad {a : Alphabet} {e : AlphabetEntry} (he : e.Admitted a)
    {p : Byte} (hp : e.pad = some p) (v : Nat) : ¬e.HasSymbol v p := by
  obtain ⟨hup, hlow⟩ := he.pad p hp
  rintro (hv | ⟨low, hl, hv⟩)
  · exact hup (List.mem_of_getElem? hv)
  · exact hlow low hl (List.mem_of_getElem? hv)

theorem getElem?_of_idxOf?_eq_some {l : List Byte} {c : Byte} {v : Nat} (h : l.idxOf? c = some v) :
    l[v]? = some c := by
  obtain ⟨hv, hc, -⟩ := List.idxOf?_eq_some_iff.1 h
  exact List.getElem?_eq_some_iff.2 ⟨hv, hc⟩

theorem getElem?_ne_of_idxOf?_eq_none {l : List Byte} {c : Byte} (h : l.idxOf? c = none) (v : Nat) :
    l[v]? ≠ some c :=
  fun hv => List.idxOf?_eq_none_iff.1 h (List.mem_of_getElem? hv)

/-- All that Rlut can answer (40_alphabet.md R112). -/
theorem AlphabetRom.rlut_cases (r : AlphabetRom) (a : Alphabet) (c : Byte) :
    (∃ v, r.rlut a c = .value v ∧ (r.data.entry a).HasSymbol v c) ∨
    (∀ v, ¬(r.data.entry a).HasSymbol v c) ∧
      r.rlut a c = if r.padSym a = some c then .pad else .invalid := by
  unfold AlphabetRom.rlut
  split
  case h_1 v hup => exact .inl ⟨v, rfl, .inl (getElem?_of_idxOf?_eq_some hup)⟩
  case h_2 hup =>
    split
    case h_1 v hlow =>
      refine .inl ⟨v, rfl, .inr ?_⟩
      cases hl : (r.data.entry a).low with
      | none => simp [hl] at hlow
      | some low => exact ⟨low, rfl, getElem?_of_idxOf?_eq_some (by simpa [hl] using hlow)⟩
    case h_2 hlow =>
      refine .inr ⟨?_, rfl⟩
      rintro v (hv | ⟨low, hl, hv⟩)
      · exact getElem?_ne_of_idxOf?_eq_none hup v hv
      · rw [hl] at hlow
        exact getElem?_ne_of_idxOf?_eq_none hlow v hv

theorem AlphabetRom.rlut_eq_value_iff_hasSymbol (r : AlphabetRom) (a : Alphabet) (c : Byte) (v : Nat) :
    r.rlut a c = .value v ↔ (r.data.entry a).HasSymbol v c := by
  rcases r.rlut_cases a c with ⟨w, hw, hsym⟩ | ⟨hnone, hrlut⟩
  · rw [hw, SymbolClass.value.injEq]
    exact ⟨fun h => h ▸ hsym, (r.entry_admitted a).hasSymbol_unique hsym⟩
  · refine iff_of_false (fun h => ?_) (hnone v)
    rw [hrlut] at h
    split at h <;> cases h

theorem AlphabetRom.rlut_eq_pad_iff (r : AlphabetRom) (a : Alphabet) (c : Byte) :
    r.rlut a c = .pad ↔ r.padSym a = some c := by
  rcases r.rlut_cases a c with ⟨v, hv, hsym⟩ | ⟨-, hrlut⟩
  · exact iff_of_false (by simp [hv]) fun hp => (r.entry_admitted a).not_hasSymbol_of_pad hp v hsym
  · simp [hrlut]

/-- Every byte has a class, so the third one is what the other two leave (40_alphabet.md R113). -/
theorem AlphabetRom.rlut_eq_invalid_iff (r : AlphabetRom) (a : Alphabet) (c : Byte) :
    r.rlut a c = .invalid ↔ r.padSym a ≠ some c ∧ ∀ v, r.rlut a c ≠ .value v := by
  rw [Ne, ← r.rlut_eq_pad_iff]
  cases r.rlut a c <;> simp

theorem getElem?_eq_some_iff_getD (l : List Byte) (v : Nat) (c : Byte) :
    l[v]? = some c ↔ v < l.length ∧ l.getD v 0 = c := by
  rw [List.getElem?_eq_some_iff, ← exists_prop]
  exact exists_congr fun hv => by rw [List.getD_eq_getElem l 0 hv]

theorem AlphabetRom.fwd_true (r : AlphabetRom) (a : Alphabet) (v : Nat) :
    r.fwd a true v = (r.data.entry a).up.getD v 0 := rfl

theorem AlphabetRom.fwd_false_of_low {r : AlphabetRom} {a : Alphabet} {low : List Byte}
    (hlow : (r.data.entry a).low = some low) (v : Nat) : r.fwd a false v = low.getD v 0 := by
  simp only [AlphabetRom.fwd, hlow]

/-- The symbols of a value are what the forward lookup gives in the two cases (40_alphabet.md R101). -/
theorem AlphabetRom.hasSymbol_iff_fwd (r : AlphabetRom) (a : Alphabet) (v : Nat) (c : Byte) :
    (r.data.entry a).HasSymbol v c ↔
      v < 2 ^ widthOf a ∧ (r.fwd a true v = c ∨ (r.fold a = true ∧ r.fwd a false v = c)) := by
  rw [AlphabetEntry.HasSymbol, getElem?_eq_some_iff_getD, r.up_length a, r.fwd_true, AlphabetRom.fold]
  cases hlow : (r.data.entry a).low with
  | none => simp
  | some low =>
    simp [getElem?_eq_some_iff_getD, r.low_length a hlow, AlphabetRom.fwd_false_of_low hlow, and_or_left]

/-- The reverse lookup by the forward one (40_alphabet.md R112). -/
theorem AlphabetRom.rlut_eq_value_iff (r : AlphabetRom) (a : Alphabet) (c : Byte) (v : Nat) :
    r.rlut a c = .value v ↔
      v < 2 ^ widthOf a ∧ (r.fwd a true v = c ∨ (r.fold a = true ∧ r.fwd a false v = c)) :=
  (r.rlut_eq_value_iff_hasSymbol a c v).trans (r.hasSymbol_iff_fwd a v c)

/-- Settles O36: a byte's class is VALUE v exactly for the symbols of v, of which no byte has two, PAD exactly for the
pad symbol, which is none of them, and INVALID when it is neither. -/
theorem rlutInvertsTheForwardTables : Obligations.RlutInvertsTheForwardTables := by
  unfold Obligations.RlutInvertsTheForwardTables
  intro r a c
  refine ⟨r.rlut_eq_value_iff a c, r.rlut_eq_pad_iff a c, ?_⟩
  rw [r.rlut_eq_invalid_iff]
  simp only [Ne, r.rlut_eq_value_iff, not_and, not_or]

end Sys2Proof.Machine
end

section
/-! The encoder commands: the modes that allow a command, the decoding of ENC_BYTE's words, and the whole effect of
ENC_BEGIN, ENC_BYTE and ENC_END (41_encoder.md R121 to R123; 60_exceptions.md R201). -/

namespace Sys2Proof

/-- The operand fields lie below OP (30_encoding.md R70, R71). -/
theorem Instr.operandValue_lt (i : Instr) : i.operandValue < 2 ^ 28 := by
  cases i with
  | cfgWr alpha ucase padEn strict =>
    have halpha := alpha.isLt
    have hucase := ucase.toNat_le
    have hpad := padEn.toNat_le
    have hstrict := strict.toNat_le
    simp only [Instr.operandValue]
    omega
  | skipSet c v =>
    have hc := c.isLt
    have hv := v.toNat_le
    simp only [Instr.operandValue]
    omega
  | encByte x | decSym x | sizeEnc x | sizeDec x => exact Nat.lt_of_lt_of_le x.isLt (by decide)
  | _ => exact Nat.two_pow_pos 28

/-- A command's word selects the command's own row (30_encoding.md R73). -/
theorem opField_encode_toNat (i : Instr) : (opField (encode i)).toNat = i.opcode := by
  have hlow := i.operandValue_lt
  rw [opField_toNat, encode_toNat]
  omega

/-- Layout B gives the byte back (30_encoding.md R71, R72). -/
theorem byteField_encode_encByte (b : Byte) : byteField (encode (.encByte b)) = b := by
  have hb := b.isLt
  apply BitVec.eq_of_toNat_eq
  rw [byteField_toNat, encode_toNat, Instr.opcode, Instr.operandValue]
  omega

theorem decode_encode_encByte (b : Byte) : decode (encode (.encByte b)) = .ok (.encByte b) := by
  obtain ⟨_, hrow, hmatch⟩ := Laws.RowMatch.encByte b
  cases hrow
  simp only [decode, opField_encode_toNat, Instr.opcode, rowDecode, if_pos hmatch, byteField_encode_encByte]

namespace Machine

/-- The ok cells of the mode legality table (60_exceptions.md R201). -/
theorem modeRule_eq_ok_iff (i : Instr) (m : Mode) : modeRule i m = .ok ↔ m ∈ okModes i := by
  cases i <;> cases m <;> simp [modeRule]

/-- Outside its ok modes every command but DEC_SYM, which HALT drops, is SEQ (60_exceptions.md R201, R207). -/
theorem modeRule_eq_seq {i : Instr} {m : Mode} (hm : m ∉ okModes i) (hi : ∀ c, i ≠ .decSym c) :
    modeRule i m = .seq := by
  cases hcell : modeRule i m with
  | ok => exact absurd ((modeRule_eq_ok_iff i m).1 hcell) hm
  | drop =>
    obtain ⟨⟨c, hc⟩, -⟩ := modeRule_drop hcell
    exact absurd hc (hi c)
  | seq => rfl

theorem exec_of_mem_okModes {i : Instr} {s : State} (hi : i.wellFormed = true) (hm : s.mode ∈ okModes i) :
    exec i s = .next (effectOf i s) :=
  exec_ok hi ((modeRule_eq_ok_iff i s.mode).2 hm)

theorem exec_of_not_mem_okModes {i : Instr} {s : State} (hi : i.wellFormed = true) (hsym : ∀ c, i ≠ .decSym c)
    (hm : s.mode ∉ okModes i) : exec i s = .next (s.withCommandError .sequence) :=
  exec_seq hi (modeRule_eq_seq hm hsym)

/-- Settles O39: in IDLE, its one ok mode, the command's effect is to open the frame. -/
theorem encBeginOpensAnEncodeFrame : Obligations.EncBeginOpensAnEncodeFrame := by
  unfold Obligations.EncBeginOpensAnEncodeFrame
  refine ⟨rfl, fun s hidle => ?idle, fun s hmode => ?elsewhere, ?worked⟩
  case idle => exact exec_of_mem_okModes rfl (by simp [hidle])
  case elsewhere => exact exec_of_not_mem_okModes rfl (by simp) (by simpa using hmode)
  case worked => exact ⟨_, rfl, rfl, rfl⟩

/-- Settles O40: in ENC, its one ok mode, the command's effect is the packing loop, which encByteEffect_eq gives in
arithmetic. -/
theorem encByteEmitsWholeGroups : Obligations.EncByteEmitsWholeGroups := by
  unfold Obligations.EncByteEmitsWholeGroups
  refine ⟨decode_encode_encByte, fun s b henc => ?enc, fun s b hmode => ?elsewhere, ?worked⟩
  case enc =>
    rw [exec_of_mem_okModes rfl (by simp [henc]), effectOf, encByteEffect_eq]
    rfl
  case elsewhere => exact exec_of_not_mem_okModes rfl (by simp) (by simpa using hmode)
  case worked => exact ⟨_, rfl, by decide⟩

theorem State.finalSymbol_eq (s : State) : s.finalSymbol =
    if 0 < s.bits.toNat then
      [s.rom.fwd s.cfg.alpha s.cfg.ucase (s.acc.toNat * 2 ^ (s.k - s.bits.toNat) % 2 ^ s.k)] else [] := by
  rw [State.finalSymbol, State.finalGroup, State.symOut, and_mask, Nat.shiftLeft_eq]

/-- Padding applies to the widths 5 and 6 (41_encoder.md R123). -/
theorem padWidth_eq_true_iff (k : Nat) : padWidth k = true ↔ k = 5 ∨ k = 6 := by simp [padWidth]

/-- A block has 2, 4 or 8 symbols, so the wrapping of a counter loses no position in the block. -/
theorem padsDue_mod_two_pow (s : State) (n : Nat) : padsDue s.k (n % 2 ^ 32) = padsDue s.k n := by
  have hdvd : symbolsPerBlock s.k ∣ 2 ^ 32 := by rcases s.k_cases with hk | hk | hk | hk <;> rw [hk] <;> decide
  rw [padsDue, padsDue, Nat.mod_mod_of_dvd n hdvd]

/-- The pads due are counted from the true number of items, although OUTCNT wraps (10_state.md R34). -/
theorem padsDue_outcnt_add (s : State) (n : Nat) :
    padsDue s.k (s.outcnt + BitVec.ofNat 32 n).toNat = padsDue s.k (s.outcnt.toNat + n) := by
  rw [BitVec.toNat_add, BitVec.toNat_ofNat, Nat.add_mod_mod, padsDue_mod_two_pow]

/-- Settles O41: ENC_END's items are the symbol of the final partial group, then the pads that complete the block, by
padsDue_spec, where padding applies, and none where any of its three conditions fails. -/
theorem encEndFlushesAndPads : Obligations.EncEndFlushesAndPads := by
  unfold Obligations.EncEndFlushesAndPads
  refine ⟨rfl, fun s henc => ?enc, fun s hmode => ?elsewhere, ?worked⟩
  case enc =>
    obtain ⟨pads, heffect, hpads⟩ := encEndEffect_eq s
    refine ⟨s.finalSymbol, pads, ?effect, s.finalSymbol_eq, fun p hen hk hsym => ?padded, fun hnone => ?unpadded⟩
    case effect =>
      rw [exec_of_mem_okModes rfl (by simp [henc]), effectOf, heffect, List.length_append, List.append_assoc]
    case padded =>
      have hwidth := (padWidth_eq_true_iff s.k).2 hk
      simp only [hsym, hen, hwidth, Bool.and_self, if_true, padsDue_outcnt_add] at hpads
      have hdue := padsDue_spec s (s.outcnt.toNat + s.finalSymbol.length)
      rw [hpads, List.length_replicate]
      exact ⟨fun _ => List.eq_of_mem_replicate, hdue⟩
    case unpadded =>
      rw [hpads]
      split
      next => rfl
      next p hsym =>
        refine if_neg fun hon => ?_
        rw [Bool.and_eq_true, padWidth_eq_true_iff] at hon
        obtain ⟨hen, hk⟩ := hon
        rcases hnone with hoff | hwidth | hnoPad
        · exact Bool.false_ne_true (hoff.symm.trans hen)
        · exact hk.elim hwidth.1 hwidth.2
        · cases hsym.symm.trans hnoPad
  case elsewhere => exact exec_of_not_mem_okModes rfl (by simp) (by simpa using hmode)
  case worked => exact ⟨_, rfl, by decide⟩

end Machine

end Sys2Proof
end

section
/-! The decoder commands: the decoding of DEC_SYM's words, one equation for each case of DEC_SYM's effect, the length
checks as a condition, and the whole effect of DEC_BEGIN, DEC_SYM and DEC_END (42_decoder.md R141 to R151). -/

namespace Sys2Proof

/-- A command of layout B, whose operand fields are one byte, has that byte in its word's low 8 bits (30_encoding.md R71,
R72). -/
theorem byteField_encode_of_operandValue {i : Instr} {b : Byte} (h : i.operandValue = b.toNat) :
    byteField (encode i) = b := by
  have hb := b.isLt
  apply BitVec.eq_of_toNat_eq
  rw [byteField_toNat, encode_toNat, h]
  omega

theorem decode_encode_decSym (c : Byte) : decode (encode (.decSym c)) = .ok (.decSym c) := by
  obtain ⟨_, hrow, hmatch⟩ := Laws.RowMatch.decSym c
  cases hrow
  have hbyte : byteField (encode (.decSym c)) = c := byteField_encode_of_operandValue rfl
  simp only [decode, opField_encode_toNat, Instr.opcode, rowDecode, if_pos hmatch, hbyte]

namespace Machine

/-- In a drop mode a well-formed command does nothing (60_exceptions.md R201). -/
theorem exec_drop {i : Instr} {s : State} (hi : i.wellFormed = true) (hm : modeRule i s.mode = .drop) :
    exec i s = .next s := by
  rw [exec_eq_inMode i s hi, inMode, hm]

/-- Settles O45: in IDLE, its one ok mode, the command's effect is to open the frame. -/
theorem decBeginOpensADecodeFrame : Obligations.DecBeginOpensADecodeFrame := by
  unfold Obligations.DecBeginOpensADecodeFrame
  refine ⟨rfl, fun s hidle => ?idle, fun s hmode => ?elsewhere, ?worked⟩
  case idle => exact exec_of_mem_okModes rfl (by simp [hidle])
  case elsewhere => exact exec_of_not_mem_okModes rfl (by simp) (by simpa using hmode)
  case worked => exact ⟨_, rfl, rfl⟩

/-! ### DEC_SYM -/

section DecSym

variable {s : State} {c : Byte}

theorem decSymEffect_of_skips (hskip : s.skips c = true) : decSymEffect c s = { s with incnt := s.incnt + 1 } :=
  if_pos hskip

/-- An INVALID character and a data symbol after a pad are refused at their position, and nothing else is written but
INCNT (42_decoder.md R144, R146). -/
theorem decSymEffect_of_refused (hskip : s.skips c = false)
    (hrefused : s.classify c = .invalid ∨ 0 < s.padcnt.toNat ∧ ∃ v, s.classify c = .value v) : decSymEffect c s =
      { s with incnt := s.incnt + 1, err := some .invalidChar, errPos := s.incnt, mode := .halt } := by
  rcases hrefused with hclass | ⟨hpad, v, hclass⟩
  · simp only [decSymEffect, hskip, Bool.false_eq_true, if_false, hclass, State.raiseDecodeError]
  · have hne : s.padcnt ≠ 0 := fun hzero => by simp [hzero] at hpad
    simp only [decSymEffect, hskip, Bool.false_eq_true, if_false, hclass, if_pos hne, State.raiseDecodeError]

theorem decSymEffect_of_pad (hskip : s.skips c = false) (hclass : s.classify c = .pad) :
    decSymEffect c s = { s with incnt := s.incnt + 1, padcnt := satInc s.padcnt } := by
  simp only [decSymEffect, hskip, Bool.false_eq_true, if_false, hclass]

theorem decSymEffect_of_value {v : Nat} (hskip : s.skips c = false) (hclass : s.classify c = .value v)
    (hpad : s.padcnt.toNat = 0) : decSymEffect c s = decValueEffect v { s with incnt := s.incnt + 1 } := by
  have hzero : ¬s.padcnt ≠ 0 := not_not_intro (BitVec.eq_of_toNat_eq hpad)
  simp only [decSymEffect, hskip, Bool.false_eq_true, if_false, hclass, if_neg hzero]

end DecSym

theorem satInc_eq_ofNat_min (x : Word) : satInc x = BitVec.ofNat 32 (min (x.toNat + 1) (2 ^ 32 - 1)) := by
  rw [← satInc_toNat, BitVec.ofNat_toNat, BitVec.setWidth_eq]

/-- Settles O46: in DEC, its one ok mode, the command's effect is that of the character's class, and a data symbol waits
or completes a byte by decValueEffect_cases. -/
theorem decSymTakesOneCharacter : Obligations.DecSymTakesOneCharacter := by
  unfold Obligations.DecSymTakesOneCharacter
  refine ⟨decode_encode_decSym, fun s c hdec => ?dec, fun s c hhalt => ?halt, fun s c hmode => ?elsewhere, ?worked⟩
  case dec =>
    rw [exec_of_mem_okModes rfl (by simp [hdec]), effectOf]
    refine ⟨fun hskip => ?skipped, fun hskip hclass => ?invalid, fun hskip hclass => ?pad,
      fun v hskip hclass hpad => ?afterPad, fun v hskip hclass hpad hfew => ?waits,
      fun v hskip hclass hpad hfull => ?emits⟩
    case skipped => rw [decSymEffect_of_skips hskip]
    case invalid => rw [decSymEffect_of_refused hskip (.inl hclass)]
    case pad => rw [decSymEffect_of_pad hskip hclass, satInc_eq_ofNat_min]
    case afterPad => rw [decSymEffect_of_refused hskip (.inr ⟨hpad, v, hclass⟩)]
    case waits =>
      rw [decSymEffect_of_value hskip hclass hpad]
      have hcases := decValueEffect_cases v { s with incnt := s.incnt + 1 } (AlphabetRom.rlut_lt hclass)
      exact congrArg Host.Outcome.next (hcases.resolve_right fun h => Nat.not_lt.2 h.1 hfew).2
    case emits =>
      rw [decSymEffect_of_value hskip hclass hpad]
      have hcases := decValueEffect_cases v { s with incnt := s.incnt + 1 } (AlphabetRom.rlut_lt hclass)
      exact congrArg Host.Outcome.next (hcases.resolve_left fun h => Nat.not_lt.2 hfull h.1).2
  case halt => exact exec_drop rfl (by rw [hhalt]; rfl)
  case elsewhere => exact exec_seq rfl (by rcases hmode with hmode | hmode <;> rw [hmode] <;> rfl)
  case worked => exact ⟨_, rfl, by decide⟩

/-! ### DEC_END -/

/-- The length checks: residue, padding and, under STRICT, residual bits (42_decoder.md R149 to R151). -/
theorem State.lengthOk_iff (s : State) : s.lengthOk = true ↔
    s.bits.toNat < s.k ∧ (s.padcnt.toNat = 0 ∨ s.padcnt.toNat = padsDue s.k s.datacnt.toNat) ∧
      (s.cfg.strict = true → s.acc = 0) := by
  cases hstrict : s.cfg.strict <;>
    simp [State.lengthOk, State.residueOk, State.paddingOk, State.residualOk, hstrict, and_assoc]

/-- A frame fails the length checks by failing one of the three. -/
theorem State.lengthOk_eq_false_iff (s : State) : s.lengthOk = false ↔
    s.k ≤ s.bits.toNat ∨ (s.padcnt.toNat ≠ 0 ∧ s.padcnt.toNat ≠ padsDue s.k s.datacnt.toNat) ∨
      (s.cfg.strict = true ∧ s.acc ≠ 0) := by
  rw [← Bool.not_eq_true, s.lengthOk_iff, not_and_or, not_and_or, not_or, Classical.not_imp, Nat.not_lt]

/-- Settles O48: in DEC, where the command gives the verdict, lengthOk_iff and its negation say which; in HALT, its other
ok mode, there is none. -/
theorem decEndValidatesAndCloses : Obligations.DecEndValidatesAndCloses := by
  unfold Obligations.DecEndValidatesAndCloses
  refine ⟨rfl, fun s hdec hresidue hpads hresidual => ?passes, fun s hdec hfails => ?fails, fun s hhalt => ?halt,
    fun s hmode => ?elsewhere, ?worked⟩
  case passes =>
    have hok := s.lengthOk_iff.2 ⟨hresidue, hpads, hresidual⟩
    rw [exec_of_mem_okModes rfl (by simp [hdec]), effectOf, decVerdict_dec hdec, if_pos hok, State.closeFrame]
  case fails =>
    have hbad := s.lengthOk_eq_false_iff.2 hfails
    rw [exec_of_mem_okModes rfl (by simp [hdec]), effectOf, decVerdict_dec hdec, if_neg (Bool.eq_false_iff.1 hbad)]
    rfl
  case halt =>
    rw [exec_of_mem_okModes rfl (by simp [hhalt]), effectOf, decVerdict_other (by simp [hhalt]), State.closeFrame]
  case elsewhere =>
    exact exec_of_not_mem_okModes rfl (by simp) (by rcases hmode with hmode | hmode <;> simp [hmode])
  case worked => exact ⟨_, rfl, by decide⟩

end Machine

end Sys2Proof
end

section
/-! The control commands: the words of a row's opcode that the row refuses, the decoding of CFG_WR's and SKIP_SET's
words, and the whole effect of each command (43_control.md R170 to R175). -/

namespace Sys2Proof

/-- Every row of the opcode map fixes OP, to the row's own number (30_encoding.md R73). -/
theorem opcodeRows_fix_opField :
    ∀ p ∈ opcodeRows.zipIdx, opField p.1.2 = BitVec.allOnes 4 ∧ (opField p.1.1).toNat = p.2 := by decide

/-- A row takes only words of its own OP (30_encoding.md R73). -/
theorem op_of_row_match {w : Word} {n : Nat} {r : Word × Word} (hrow : opcodeRows[n]? = some r)
    (hmatch : w &&& r.2 = r.1) : w.toNat / 2 ^ 28 = n := by
  obtain ⟨hmask, hop⟩ := opcodeRows_fix_opField (r, n) (List.mk_mem_zipIdx_iff_getElem?.2 hrow)
  have hand : opField (w &&& r.2) = opField w &&& opField r.2 := BitVec.extractLsb'_and
  rw [hmatch, hmask, BitVec.and_allOnes] at hand
  calc w.toNat / 2 ^ 28 = (opField w).toNat := (opField_toNat w).symm
    _ = n := by rw [← hand, hop]

/-- A word that its OP's own row refuses matches no row. -/
theorem no_row_of_own_row_refuses {w : Word} {n : Nat} {r : Word × Word} (hrow : opcodeRows[n]? = some r)
    (hop : w.toNat / 2 ^ 28 = n) (hrefused : w &&& r.2 ≠ r.1) : ∀ r' ∈ opcodeRows, w &&& r'.2 ≠ r'.1 := by
  intro r' hr' hmatch
  obtain ⟨m, hrow'⟩ := List.mem_iff_getElem?.1 hr'
  obtain rfl : n = m := hop.symm.trans (op_of_row_match hrow' hmatch)
  obtain rfl : r = r' := Option.some.inj (hrow.symm.trans hrow')
  exact hrefused hmatch

/-- The bit at position p of a word is read off its number (30_encoding.md R71). -/
theorem getLsbD_eq_of_toNat_div_mod {w : Word} {p : Nat} {b : Bool} (h : w.toNat / 2 ^ p % 2 = b.toNat) :
    w.getLsbD p = b :=
  Function.LeftInverse.injective Bool.ofNat_toNat ((bit_toNat w p).trans h)

/-- Layout C gives the four fields back (30_encoding.md R71). -/
theorem fields_encode_cfgWr (alpha : BitVec 3) (u p x : Bool) :
    alphaField (encode (.cfgWr alpha u p x)) = alpha ∧ (encode (.cfgWr alpha u p x)).getLsbD 3 = u ∧
      (encode (.cfgWr alpha u p x)).getLsbD 4 = p ∧ (encode (.cfgWr alpha u p x)).getLsbD 5 = x := by
  have hword := encode_toNat (.cfgWr alpha u p x)
  have halpha := alpha.isLt
  have hu := u.toNat_le
  have hp := p.toNat_le
  have hx := x.toNat_le
  simp only [Instr.opcode, Instr.operandValue] at hword
  refine ⟨BitVec.eq_of_toNat_eq ?_, getLsbD_eq_of_toNat_div_mod ?_, getLsbD_eq_of_toNat_div_mod ?_,
    getLsbD_eq_of_toNat_div_mod ?_⟩
  · rw [alphaField_toNat]
    omega
  all_goals omega

theorem decode_encode_cfgWr {alpha : BitVec 3} {u p x : Bool} (h : (Instr.cfgWr alpha u p x).wellFormed = true) :
    decode (encode (.cfgWr alpha u p x)) = .ok (.cfgWr alpha u p x) := by
  obtain ⟨_, hrow, hmatch⟩ := Laws.RowMatch.cfgWr alpha u p x
  cases hrow
  obtain ⟨halpha, hu, hp, hx⟩ := fields_encode_cfgWr alpha u p x
  simp only [decode, opField_encode_toNat, Instr.opcode, rowDecode, if_pos hmatch, halpha, hu, hp, hx, Except.bind,
    alphaDecode, if_pos h]

/-- Layout S gives both fields back (30_encoding.md R71). -/
theorem fields_encode_skipSet (c : Byte) (v : Bool) :
    byteField (encode (.skipSet c v)) = c ∧ (encode (.skipSet c v)).getLsbD 8 = v := by
  have hword := encode_toNat (.skipSet c v)
  have hc := c.isLt
  have hv := v.toNat_le
  simp only [Instr.opcode, Instr.operandValue] at hword
  refine ⟨BitVec.eq_of_toNat_eq ?_, getLsbD_eq_of_toNat_div_mod ?_⟩
  · rw [byteField_toNat]
    omega
  · omega

theorem decode_encode_skipSet (c : Byte) (v : Bool) : decode (encode (.skipSet c v)) = .ok (.skipSet c v) := by
  obtain ⟨_, hrow, hmatch⟩ := Laws.RowMatch.skipSet c v
  cases hrow
  obtain ⟨hc, hv⟩ := fields_encode_skipSet c v
  simp only [decode, opField_encode_toNat, Instr.opcode, rowDecode, if_pos hmatch, hc, hv]

namespace Machine

/-- CFG_WR's word is its opcode and the CFG register's value (43_control.md R171). -/
theorem encode_cfgWr_eq_cfgByte (a : Alphabet) (u p x : Bool) :
    encode (.cfgWr (alphabetCode a) u p x) = 0x10000000 ||| (cfgByte ⟨a, u, p, x⟩).setWidth 32 := by
  have hbyte : ((cfgByte ⟨a, u, p, x⟩).setWidth 32).toNat = (cfgByte ⟨a, u, p, x⟩).toNat :=
    BitVec.toNat_setWidth_of_le (by decide)
  apply BitVec.eq_of_toNat_eq
  rw [encode_toNat, or_low_toNat _ _ 8 (by decide) (by rw [hbyte]; exact (cfgByte _).isLt), hbyte, cfgByte_toNat]
  simp only [Instr.opcode, Instr.operandValue]
  change _ = 0x10000000 + _
  omega

/-- A word that its OP's own row refuses is ILLEGAL, whichever reserved bit is set (30_encoding.md R74). -/
theorem raisesIllegal_of_own_row_refuses {w : Word} {n : Nat} {r : Word × Word} (hrow : opcodeRows[n]? = some r)
    (hop : w.toNat / 2 ^ 28 = n) (hrefused : w &&& r.2 ≠ r.1) : RaisesIllegal w := by
  obtain ⟨_, herror⟩ := decode_error_of_no_row (no_row_of_own_row_refuses hrow hop hrefused)
  exact raisesIllegal_of_decode_error herror

/-- Layout N, all of whose bits below OP are reserved, has one legal word (30_encoding.md R71, R77). -/
theorem raisesIllegal_of_layoutN {w m : Word} {n : Nat} (hrow : opcodeRows[n]? = some (m, 0xFFFFFFFF))
    (hop : w.toNat / 2 ^ 28 = n) (hne : w ≠ m) : RaisesIllegal w :=
  raisesIllegal_of_own_row_refuses hrow hop fun hmatch => hne (BitVec.eq_of_toNat_eq ((row_match_N w m).1 hmatch))

theorem wellFormed_cfgWr_alphabetCode (a : Alphabet) (u p x : Bool) :
    (Instr.cfgWr (alphabetCode a) u p x).wellFormed = true :=
  decide_eq_true (Nat.lt_succ_of_le (alphabetCode_le_five a))

/-- CFG_WR's effect for a code that names an alphabet is to write CFG (43_control.md R171). -/
theorem effectOf_cfgWr_alphabetCode (a : Alphabet) (u p x : Bool) (s : State) :
    effectOf (.cfgWr (alphabetCode a) u p x) s = { s with cfg := ⟨a, u, p, x⟩ } := by
  simp only [effectOf, cfgOperand, alphabetOfCode_alphabetCode, Option.map_some]

/-- A state whose frame is closed already stays as it is (43_control.md R174). -/
theorem State.closeFrame_of_closed {s : State} (hacc : s.acc = 0) (hbits : s.bits = 0) (hidle : s.mode = .idle) :
    s.closeFrame = s := by
  cases s
  cases hacc
  cases hbits
  cases hidle
  rfl

/-- Settles O30: CFG_WR's word is its encoding, which decodes to it; in IDLE, its one ok mode, its effect writes CFG; a
word of its opcode is refused by its row for a reserved bit, or else by the value check for ALPHA. -/
theorem cfgWrWritesTheConfiguration : Obligations.CfgWrWritesTheConfiguration := by
  unfold Obligations.CfgWrWritesTheConfiguration
  refine ⟨fun a u p x => ?decodes, fun a u p x s hidle => ?idle, fun a u p x s hmode => ?elsewhere,
    fun w hop hbad => ?illegal, ?worked⟩
  case decodes =>
    rw [← encode_cfgWr_eq_cfgByte]
    exact decode_encode_cfgWr (wellFormed_cfgWr_alphabetCode a u p x)
  case idle =>
    rw [exec_of_mem_okModes (wellFormed_cfgWr_alphabetCode a u p x) (by simp [hidle]), effectOf_cfgWr_alphabetCode]
  case elsewhere =>
    exact exec_of_not_mem_okModes (wellFormed_cfgWr_alphabetCode a u p x) (by simp) (by simpa using hmode)
  case illegal =>
    by_cases hmatch : w &&& 0xFFFFFFC0 = 0x10000000
    · have hreserved : w.toNat / 64 * 64 = 0x10000000 := (row_match_C w _).1 hmatch
      have halpha : 6 ≤ w.toNat % 8 := hbad.resolve_left (by omega)
      exact raisesIllegal_of_decode_error (decode_alphabetCode hmatch halpha)
    · exact raisesIllegal_of_own_row_refuses rfl hop hmatch
  case worked => exact ⟨_, rfl, by decide⟩

/-- Settles O31: SKIP_SET's word is its encoding, which decodes to it; in IDLE, its one ok mode, its effect is
skipWrite, whose bits skipWrite_getLsbD gives; a word of its opcode with a reserved bit is refused by its row. -/
theorem skipSetWritesOneBit : Obligations.SkipSetWritesOneBit := by
  unfold Obligations.SkipSetWritesOneBit
  refine ⟨decode_encode_skipSet, fun c v s hidle => ?idle, fun c v s hmode => ?elsewhere,
    fun w hop hbad => ?illegal, ?worked⟩
  case idle =>
    exact ⟨skipWrite s.skip c v, exec_of_mem_okModes rfl (by simp [hidle]), fun d => skipWrite_getLsbD s.skip c d v⟩
  case elsewhere => exact exec_of_not_mem_okModes rfl (by simp) (by simpa using hmode)
  case illegal =>
    refine raisesIllegal_of_own_row_refuses rfl hop fun hmatch => ?_
    have hreserved : w.toNat / 512 * 512 = 0x20000000 := (row_match_S w _).1 hmatch
    omega
  case worked => exact ⟨_, rfl, by decide⟩

/-- Settles O29: every mode is an ok mode of NOP, and its effect is the state itself. -/
theorem nopDoesNothing : Obligations.NopDoesNothing := by
  unfold Obligations.NopDoesNothing
  refine ⟨rfl, fun s => ?exec, fun w => raisesIllegal_of_layoutN rfl, ?worked⟩
  case exec => exact exec_ok rfl rfl
  case worked => exact ⟨_, rfl, by decide⟩

/-- Settles O32: in IDLE, its one ok mode, the command's effect is to clear SKIP. -/
theorem skipClrClearsTheMask : Obligations.SkipClrClearsTheMask := by
  unfold Obligations.SkipClrClearsTheMask
  refine ⟨rfl, fun s hidle => ?idle, fun s hmode => ?elsewhere, fun w => raisesIllegal_of_layoutN rfl, ?worked⟩
  case idle => exact exec_of_mem_okModes rfl (by simp [hidle])
  case elsewhere => exact exec_of_not_mem_okModes rfl (by simp) (by simpa using hmode)
  case worked => exact ⟨_, rfl, by decide⟩

/-- Settles O33: every mode is an ok mode of ABORT, and its effect is closeFrame, which in IDLE finds the datapath clear
by the invariant. -/
theorem abortClosesAnyFrame : Obligations.AbortClosesAnyFrame := by
  unfold Obligations.AbortClosesAnyFrame
  have hexec (s : State) : exec .abort s = .next s.closeFrame := exec_ok rfl rfl
  refine ⟨rfl, hexec, fun s hinv hidle => ?idle, fun w => raisesIllegal_of_layoutN rfl, ?worked⟩
  case idle =>
    obtain ⟨-, hempty, -⟩ := hinv
    obtain ⟨hbits, hacc⟩ := hempty hidle
    rw [hexec, State.closeFrame_of_closed hacc hbits hidle]
  case worked => exact ⟨_, rfl, by decide⟩

/-- Settles O34: every mode is an ok mode of CLR_ERR, and its effect is to clear CMDERR. -/
theorem clrErrClearsTheCommandError : Obligations.ClrErrClearsTheCommandError := by
  unfold Obligations.ClrErrClearsTheCommandError
  refine ⟨rfl, fun s => ?exec, fun w => raisesIllegal_of_layoutN rfl, ?raised, ?cleared⟩
  case exec => exact exec_ok rfl rfl
  case raised => exact ⟨_, rfl, by decide⟩
  case cleared => exact ⟨_, rfl, by decide⟩

end Machine

end Sys2Proof
end

section
/-! The size calculators: the decoding of layout Z's words, the two bounds as arithmetic, and the whole effect of SIZE_ENC
and SIZE_DEC (44_sizing.md R190, R191). -/

namespace Sys2Proof

/-- A command of layout Z, whose operand is one length, has that length in its word's low 24 bits (30_encoding.md R71,
R72). -/
theorem sizeField_encode_of_operandValue {i : Instr} {n : BitVec 24} (h : i.operandValue = n.toNat) :
    sizeField (encode i) = n := by
  have hn := n.isLt
  apply BitVec.eq_of_toNat_eq
  rw [sizeField_toNat, encode_toNat, h]
  omega

theorem decode_encode_sizeEnc (n : BitVec 24) : decode (encode (.sizeEnc n)) = .ok (.sizeEnc n) := by
  obtain ⟨_, hrow, hmatch⟩ := Laws.RowMatch.sizeEnc n
  cases hrow
  have hsize : sizeField (encode (.sizeEnc n)) = n := sizeField_encode_of_operandValue rfl
  simp only [decode, opField_encode_toNat, Instr.opcode, rowDecode, if_pos hmatch, hsize]

theorem decode_encode_sizeDec (n : BitVec 24) : decode (encode (.sizeDec n)) = .ok (.sizeDec n) := by
  obtain ⟨_, hrow, hmatch⟩ := Laws.RowMatch.sizeDec n
  cases hrow
  have hsize : sizeField (encode (.sizeDec n)) = n := sizeField_encode_of_operandValue rfl
  simp only [decode, opField_encode_toNat, Instr.opcode, rowDecode, if_pos hmatch, hsize]

namespace Machine

/-- A word of layout Z is ILLEGAL for each of the reserved bits 24 to 27, its row's match word having OP alone
(30_encoding.md R71, R74). -/
theorem raisesIllegal_of_layoutZ {w m : Word} {n : Nat} (hrow : opcodeRows[n]? = some (m, 0xFF000000))
    (hzero : m.toNat % 2 ^ 28 = 0) (hop : w.toNat / 2 ^ 28 = n) (hbad : 2 ^ 24 ≤ w.toNat % 2 ^ 28) :
    RaisesIllegal w := by
  refine raisesIllegal_of_own_row_refuses hrow hop fun hmatch => ?_
  have hreserved := (row_match_Z w m).1 hmatch
  omega

/-! ### The bounds -/

theorem symbolsPerBlock_pos (k : Nat) : 0 < symbolsPerBlock k :=
  Nat.div_gcd_pos_of_pos_left k (by decide)

theorem bytesPerBlock_pos {k : Nat} (hk : 0 < k) : 0 < bytesPerBlock k :=
  Nat.div_gcd_pos_of_pos_right 8 hk

/-- A block's symbols carry the bits of a block's bytes (00_scope.md R8). -/
theorem mul_symbolsPerBlock (k : Nat) : k * symbolsPerBlock k = 8 * bytesPerBlock k := by
  rw [symbolsPerBlock, bytesPerBlock, ← Nat.mul_div_assoc k (Nat.gcd_dvd_left 8 k),
    ← Nat.mul_div_assoc 8 (Nat.gcd_dvd_right 8 k), Nat.mul_comm]

theorem maxEncodeSize_eq_ceilDiv (k n : Nat) :
    maxEncodeSize k n = (n ⌈/⌉ bytesPerBlock k) * symbolsPerBlock k := by
  rw [maxEncodeSize, Nat.ceilDiv_eq_add_pred_div]

/-- The blocks that hold n bytes are the blocks that hold the symbols of n bytes: m blocks are enough for either exactly
when 8 * n bits fit into them (44_sizing.md R190). -/
theorem ceilDiv_symbolsPerBlock {k : Nat} (hk : 0 < k) (n : Nat) :
    (8 * n ⌈/⌉ k) ⌈/⌉ symbolsPerBlock k = n ⌈/⌉ bytesPerBlock k := by
  refine eq_of_forall_ge_iff fun m => ?_
  calc (8 * n ⌈/⌉ k) ⌈/⌉ symbolsPerBlock k ≤ m
    _ ↔ 8 * n ⌈/⌉ k ≤ symbolsPerBlock k * m := ceilDiv_le_iff_le_mul (symbolsPerBlock_pos k)
    _ ↔ 8 * n ≤ 8 * (bytesPerBlock k * m) := by
      rw [ceilDiv_le_iff_le_mul hk, ← Nat.mul_assoc, mul_symbolsPerBlock, Nat.mul_assoc]
    _ ↔ n ≤ bytesPerBlock k * m := Nat.mul_le_mul_left_iff (by decide)
    _ ↔ n ⌈/⌉ bytesPerBlock k ≤ m := (ceilDiv_le_iff_le_mul (bytesPerBlock_pos hk)).symm

/-- A byte needs at most eight symbols (44_sizing.md R190). -/
theorem maxEncodeSize_le {k : Nat} (hk : 0 < k) (n : Nat) : maxEncodeSize k n ≤ n * 8 := by
  have hblocks : n ⌈/⌉ bytesPerBlock k ≤ n :=
    (ceilDiv_le_iff_le_mul (bytesPerBlock_pos hk)).2 (Nat.le_mul_of_pos_left n (bytesPerBlock_pos hk))
  rw [maxEncodeSize_eq_ceilDiv]
  exact Nat.mul_le_mul hblocks (Nat.div_le_self 8 _)

/-- A symbol carries less than a byte (44_sizing.md R191). -/
theorem maxDecodeSize_le {k : Nat} (hk : k ≤ 8) (n : Nat) : maxDecodeSize k n ≤ n :=
  Nat.div_le_of_le_mul (by rw [Nat.mul_comm]; exact Nat.mul_le_mul_right n hk)

/-! ### The commands -/

/-- Settles O56: every mode is an ok mode of SIZE_ENC, and its effect writes maxEncodeSize to SIZE, which is at most
8 * N and so fits; by ceilDiv_symbolsPerBlock it is also the symbols of N bytes rounded up to whole blocks. -/
theorem sizeEncComputesTheBound : Obligations.SizeEncComputesTheBound := by
  unfold Obligations.SizeEncComputesTheBound
  refine ⟨decode_encode_sizeEnc, fun s n => ?exec, fun w => raisesIllegal_of_layoutZ rfl rfl, ?worked⟩
  case exec =>
    have hfits : maxEncodeSize s.k n.toNat < 2 ^ 32 := by
      have hle := maxEncodeSize_le s.k_pos n.toNat
      have hn := n.isLt
      omega
    have hz := (BitVec.toNat_ofNat _ 32).trans (Nat.mod_eq_of_lt hfits)
    refine ⟨_, exec_ok rfl rfl, hz, hz.trans ?_⟩
    rw [maxEncodeSize_eq_ceilDiv, ← ceilDiv_symbolsPerBlock s.k_pos, Nat.ceilDiv_eq_add_pred_div,
      Nat.ceilDiv_eq_add_pred_div, symbolsPerBlock]
  case worked => exact ⟨_, rfl, by decide⟩

/-- Settles O57: every mode is an ok mode of SIZE_DEC, and its effect writes maxDecodeSize to SIZE, which is at most N
and so fits. -/
theorem sizeDecComputesTheBound : Obligations.SizeDecComputesTheBound := by
  unfold Obligations.SizeDecComputesTheBound
  refine ⟨decode_encode_sizeDec, fun s n => ?exec, fun w => raisesIllegal_of_layoutZ rfl rfl, ?worked⟩
  case exec =>
    have hfits : maxDecodeSize s.k n.toNat < 2 ^ 32 := by
      have hk : s.k ≤ 8 := by have := s.k_cases; omega
      have hle := maxDecodeSize_le hk n.toNat
      have hn := n.isLt
      omega
    exact ⟨_, exec_ok rfl rfl, (BitVec.toNat_ofNat _ 32).trans (Nat.mod_eq_of_lt hfits)⟩
  case worked => exact ⟨_, rfl, by decide⟩

end Machine

end Sys2Proof
end

section
/-! Errors and modes: what a command does to CMDERR, the words of the commands without operands, what ends HALT and a
recorded command error, and the two causes of INVALID_CHAR (60_exceptions.md R201, R202, R208). -/

namespace Sys2Proof

/-! ### The words of the commands without operands -/

theorem rowDecode_eq_ok_iff (w m k : Word) (i j : Instr) :
    rowDecode w m k j = .ok i ↔ w &&& k = m ∧ j = i := by
  by_cases hmatch : w &&& k = m <;> simp [rowDecode, hmatch]

/-- CFG_WR's value check changes no command: what passes it is the row's own (30_encoding.md R76). -/
theorem rowDecode_eq_of_bind_alphaDecode_ok {w m k : Word} {i j : Instr}
    (h : (rowDecode w m k j).bind alphaDecode = .ok i) : rowDecode w m k j = .ok i := by
  have hrow := rowDecode_ok_of_bind_alphaDecode_ok h
  rw [hrow] at h ⊢
  simp only [Except.bind, alphaDecode] at h
  split at h
  · exact h
  · cases h

theorem own_row_of_rowDecode_ok {w m k : Word} {i j : Instr} (h : rowDecode w m k j = .ok i)
    (hrow : opcodeRows[j.opcode]? = some (m, k)) : ∃ r, opcodeRows[i.opcode]? = some r ∧ w &&& r.2 = r.1 := by
  obtain ⟨hmatch, rfl⟩ := (rowDecode_eq_ok_iff w m k i j).1 h
  exact ⟨(m, k), hrow, hmatch⟩

/-- A word decodes to a command of a row only when it matches that row: each arm of the decoder asks the row its command
stands in (30_encoding.md R73). -/
theorem own_row_of_decode_ok {w : Word} {i : Instr} (h : decode w = .ok i) :
    ∃ r, opcodeRows[i.opcode]? = some r ∧ w &&& r.2 = r.1 := by
  unfold decode at h
  split at h
  case h_2 => exact own_row_of_rowDecode_ok (rowDecode_eq_of_bind_alphaDecode_ok h) rfl
  case h_15 => cases h
  all_goals exact own_row_of_rowDecode_ok h rfl

/-- A command of layout N has one word, its row's (30_encoding.md R71, R77). -/
theorem decode_eq_ok_iff_of_layoutN {w m : Word} {i : Instr} (hm : decode m = .ok i)
    (hrow : opcodeRows[i.opcode]? = some (m, 0xFFFFFFFF)) : decode w = .ok i ↔ w = m := by
  refine ⟨fun hdec => ?_, fun hw => hw ▸ hm⟩
  obtain ⟨r, hr, hmatch⟩ := own_row_of_decode_ok hdec
  obtain rfl := Option.some.inj (hrow.symm.trans hr)
  exact BitVec.eq_of_toNat_eq ((row_match_N w m).1 hmatch)

theorem decode_eq_decEnd_iff (w : Word) : decode w = .ok .decEnd ↔ w = 0x90000000 :=
  decode_eq_ok_iff_of_layoutN rfl rfl

theorem decode_eq_abort_iff (w : Word) : decode w = .ok .abort ↔ w = 0xA0000000 :=
  decode_eq_ok_iff_of_layoutN rfl rfl

theorem decode_eq_clrErr_iff (w : Word) : decode w = .ok .clrErr ↔ w = 0xB0000000 :=
  decode_eq_ok_iff_of_layoutN rfl rfl

namespace Machine

/-! ### What DEC_SYM writes -/

/-- A data symbol writes ACC, BITS, DATACNT, OUTCNT and OUT alone (42_decoder.md R147). -/
theorem decValueEffect_frame (v : Nat) (s : State) : ∃ acc bits datacnt outcnt out, decValueEffect v s =
    { s with acc := acc, bits := bits, datacnt := datacnt, outcnt := outcnt, out := out } := by
  simp only [decValueEffect]
  split <;> exact ⟨_, _, _, _, _, rfl⟩

/-- DEC_SYM refuses a character that is not skipped and is INVALID, or a data symbol after a pad (60_exceptions.md
R202). -/
def State.Refuses (s : State) (c : Byte) : Prop :=
  s.skips c = false ∧ (s.classify c = .invalid ∨ 0 < s.padcnt.toNat ∧ ∃ v, s.classify c = .value v)

theorem decSymEffect_of_refuses {s : State} {c : Byte} (h : s.Refuses c) : decSymEffect c s =
    { s with incnt := s.incnt + 1, err := some .invalidChar, errPos := s.incnt, mode := .halt } :=
  decSymEffect_of_refused h.1 h.2

/-- A character that is not refused is counted, and neither the mode nor the verdict changes (42_decoder.md R143, R145,
R147). -/
theorem decSymEffect_of_not_refuses {s : State} {c : Byte} (h : ¬s.Refuses c) :
    ∃ acc bits datacnt padcnt outcnt out, decSymEffect c s =
      { s with incnt := s.incnt + 1, acc := acc, bits := bits, datacnt := datacnt, padcnt := padcnt,
               outcnt := outcnt, out := out } := by
  rcases decSymEffect_cases c s with ⟨-, heq⟩ | ⟨hskip, hclass, -⟩ | ⟨-, -, heq⟩ | ⟨v, -, -, -, -, heq⟩
  · exact ⟨_, _, _, _, _, _, heq⟩
  · refine absurd ⟨hskip, hclass.imp_right fun ⟨hpad, hvalue⟩ => ⟨?_, hvalue⟩⟩ h
    exact Nat.pos_of_ne_zero fun hzero => hpad (BitVec.eq_of_toNat_eq hzero)
  · exact ⟨_, _, _, _, _, _, heq⟩
  · obtain ⟨acc, bits, datacnt, outcnt, out, hvalue⟩ := decValueEffect_frame v { s with incnt := s.incnt + 1 }
    exact ⟨acc, bits, datacnt, s.padcnt, outcnt, out, heq.trans hvalue⟩

@[simp] theorem decSymEffect_incnt (c : Byte) (s : State) : (decSymEffect c s).incnt = s.incnt + 1 := by
  by_cases h : s.Refuses c
  · rw [decSymEffect_of_refuses h]
  · obtain ⟨_, _, _, _, _, _, heq⟩ := decSymEffect_of_not_refuses h
    rw [heq]

@[simp] theorem decSymEffect_cmdErr (c : Byte) (s : State) : (decSymEffect c s).cmdErr = s.cmdErr := by
  by_cases h : s.Refuses c
  · rw [decSymEffect_of_refuses h]
  · obtain ⟨_, _, _, _, _, _, heq⟩ := decSymEffect_of_not_refuses h
    rw [heq]

/-! ### The mode legality table -/

@[simp] theorem decVerdict_cmdErr (s : State) : (decVerdict s).cmdErr = s.cmdErr := by
  by_cases hdec : s.mode = .dec
  · rw [decVerdict_dec hdec]
    split <;> rfl
  · rw [decVerdict_other hdec]

/-- No command's own rule raises a command error, and only CLR_ERR's writes CMDERR (10_state.md R37). -/
theorem effectOf_cmdErr {i : Instr} (hi : i.wellFormed = true) (hne : i ≠ .clrErr) (s : State) :
    (effectOf i s).cmdErr = s.cmdErr := by
  cases i with
  | cfgWr alpha u p x =>
    obtain ⟨a, rfl⟩ := exists_alphabetCode alpha (of_decide_eq_true hi)
    rw [effectOf_cfgWr_alphabetCode]
  | encByte b => rw [effectOf, encByteEffect_eq]
  | encEnd =>
    obtain ⟨_, heq, -⟩ := encEndEffect_eq s
    rw [effectOf, heq]
  | decSym c => exact decSymEffect_cmdErr c s
  | decEnd => exact decVerdict_cmdErr s
  | clrErr => exact absurd rfl hne
  | _ => rfl

/-- Outside its ok modes a command is SEQ, save for the one drop cell, DEC_SYM in HALT (60_exceptions.md R201). -/
theorem modeRule_eq_seq_of_not_drop {i : Instr} {m : Mode} (hm : m ∉ okModes i)
    (hdrop : ∀ c, i = .decSym c → m ≠ .halt) : modeRule i m = .seq := by
  cases hcell : modeRule i m with
  | ok => exact absurd ((modeRule_eq_ok_iff i m).1 hcell) hm
  | drop =>
    obtain ⟨⟨c, hc⟩, hhalt⟩ := modeRule_drop hcell
    exact absurd hhalt (hdrop c hc)
  | seq => rfl

/-- Settles O10: in its ok modes a command has its effect, which keeps CMDERR (effectOf_cmdErr); the one drop cell is
DEC_SYM in HALT; every other cell is SEQ. -/
theorem modeLegalityTable : Obligations.ModeLegalityTable := by
  unfold Obligations.ModeLegalityTable
  refine ⟨fun i s hi hm => ?ok, fun c s hhalt => ?drop, fun i s hi hm hdrop => ?seq⟩
  case ok => exact ⟨effectOf i s, exec_of_mem_okModes hi hm, fun hne => effectOf_cmdErr hi hne s⟩
  case drop => exact exec_drop rfl (by rw [hhalt]; rfl)
  case seq => exact exec_seq hi (modeRule_eq_seq_of_not_drop hm hdrop)

/-! ### What ends HALT and what clears CMDERR -/

/-- The reset event is presented alone or with a command word (70_reset_and_hazards.md R231). -/
theorem command_or_reset_presented (e : PortEvent) :
    (∃ w, e = .command w) ∨ (e = .reset ∨ ∃ w, e = .commandWithReset w) := by
  cases e with
  | command w => exact .inl ⟨w, rfl⟩
  | reset => exact .inr (.inl rfl)
  | commandWithReset w => exact .inr (.inr ⟨w, rfl⟩)

theorem step_of_reset_presented {s : State} {e : PortEvent} {rest : List PortEvent} (hin : s.input = e :: rest)
    (he : e = .reset ∨ ∃ w, e = .commandWithReset w) :
    step s = .next (State.resetEvent { s with input := rest }) := by
  rcases he with rfl | ⟨w, rfl⟩
  · exact step_reset s rest hin
  · exact step_commandWithReset s w rest hin

/-- A legal word is its command, on the state in which the word is taken (60_exceptions.md R209). -/
theorem step_of_decode_ok {s : State} {w : Word} {rest : List PortEvent} {i : Instr}
    (hin : s.input = .command w :: rest) (hdec : decode w = .ok i) : step s = exec i { s with input := rest } := by
  rw [step_command s w rest hin, hdec]

/-- In HALT, DEC_END closes the frame without a verdict, and so does ABORT (60_exceptions.md R208). -/
theorem exec_ends_halt {i : Instr} {s : State} (hhalt : s.mode = .halt) (hi : i = .decEnd ∨ i = .abort) :
    exec i s = .next s.closeFrame := by
  rcases hi with rfl | rfl
  · rw [exec_of_mem_okModes rfl (by simp [hhalt]), effectOf, decVerdict_other (by simp [hhalt])]
  · exact exec_ok rfl rfl

/-- Every other command leaves the mode HALT: it is dropped, raises a command error, or has an effect that does not
write MODE (60_exceptions.md R201, R208). -/
theorem exec_keeps_halt {i : Instr} {s t : State} (hhalt : s.mode = .halt) (hi : ¬(i = .decEnd ∨ i = .abort))
    (h : exec i s = .next t) : t.mode = .halt := by
  rcases exec_cases h with ⟨-, rfl⟩ | ⟨hok, -, rfl⟩ | ⟨-, rfl⟩ | ⟨-, rfl⟩
  · exact hhalt
  · rw [modeRule_eq_ok_iff, hhalt] at hok
    cases i with
    | nop | clrErr | sizeEnc | sizeDec => exact hhalt
    | decEnd | abort => simp at hi
    | _ => simp at hok
  · exact hhalt
  · exact hhalt

/-- A command word in HALT: DEC_END and ABORT close the frame, any other word, legal or not, leaves the mode
(60_exceptions.md R208). -/
theorem step_command_in_halt {s t : State} {w : Word} {rest : List PortEvent} (hhalt : s.mode = .halt)
    (hin : s.input = .command w :: rest) (h : step s = .next t) :
    ((w = 0x90000000 ∨ w = 0xA0000000) ∧ t = State.closeFrame { s with input := rest }) ∨
    (¬(w = 0x90000000 ∨ w = 0xA0000000) ∧ t.mode = .halt) := by
  rw [← decode_eq_decEnd_iff, ← decode_eq_abort_iff]
  cases hdec : decode w with
  | error err =>
    rw [raisesIllegal_of_decode_error hdec s rest hin] at h
    cases h
    exact .inr ⟨by simp, hhalt⟩
  | ok i =>
    rw [step_of_decode_ok hin hdec] at h
    by_cases hi : i = .decEnd ∨ i = .abort
    · rw [exec_ends_halt (s := { s with input := rest }) hhalt hi] at h
      exact .inl ⟨by simpa using hi, (Host.Outcome.next.inj h).symm⟩
    · exact .inr ⟨by simpa using hi, exec_keeps_halt (s := { s with input := rest }) hhalt hi h⟩

/-- Raising a command error over a recorded one leaves the recorded one (60_exceptions.md R205). -/
theorem State.raiseCmdError_cmdErr_of_recorded {s : State} (hrec : s.cmdErr ≠ none) (kind : CommandError) :
    (s.raiseCmdError kind).cmdErr = s.cmdErr := by
  obtain ⟨first, hfirst⟩ := Option.ne_none_iff_exists'.1 hrec
  rw [State.raiseCmdError_cmdErr, hfirst, Option.getD_some]

/-- A recorded command error stands under every command but CLR_ERR (60_exceptions.md R205, R208). -/
theorem exec_keeps_recorded_cmdErr {i : Instr} {s t : State} (hrec : s.cmdErr ≠ none) (hne : i ≠ .clrErr)
    (h : exec i s = .next t) : t.cmdErr = s.cmdErr := by
  rcases exec_cases h with ⟨-, rfl⟩ | ⟨-, hi, rfl⟩ | ⟨-, rfl⟩ | ⟨-, rfl⟩
  · exact State.raiseCmdError_cmdErr_of_recorded hrec .illegal
  · exact effectOf_cmdErr hi hne s
  · rfl
  · exact State.raiseCmdError_cmdErr_of_recorded hrec .sequence

/-- CLR_ERR clears CMDERR and changes nothing else, in every mode (43_control.md R175). -/
theorem step_clrErr {s : State} {rest : List PortEvent} (hin : s.input = .command 0xB0000000 :: rest) :
    step s = .next { s with input := rest, cmdErr := none } := by
  rw [step_of_decode_ok hin ((decode_eq_clrErr_iff _).2 rfl)]
  exact exec_ok rfl rfl

/-- A command word while a command error is recorded: CLR_ERR clears it, any other word, legal or not, leaves it
(60_exceptions.md R205, R208). -/
theorem step_command_recorded {s t : State} {w : Word} {rest : List PortEvent} (hrec : s.cmdErr ≠ none)
    (hin : s.input = .command w :: rest) (h : step s = .next t) :
    (w = 0xB0000000 ∧ t.cmdErr = none) ∨ (w ≠ 0xB0000000 ∧ t.cmdErr = s.cmdErr) := by
  by_cases hw : w = 0xB0000000
  · subst hw
    rw [step_clrErr hin] at h
    cases h
    exact .inl ⟨rfl, rfl⟩
  · refine .inr ⟨hw, ?_⟩
    cases hdec : decode w with
    | error err =>
      rw [step_command s w rest hin, hdec] at h
      cases h
      exact State.raiseCmdError_cmdErr_of_recorded (s := { s with input := rest }) hrec .illegal
    | ok i =>
      rw [step_of_decode_ok hin hdec] at h
      refine exec_keeps_recorded_cmdErr (s := { s with input := rest }) hrec (fun hi => ?_) h
      exact hw ((decode_eq_clrErr_iff w).1 (hi ▸ hdec))

/-- Settles O13: an event is a reset, which enters IDLE and clears CMDERR, or a command word, which ends HALT only as
step_command_in_halt says and clears CMDERR only as step_command_recorded says. -/
theorem haltEndsOnlyByEndAbortOrReset : Obligations.HaltEndsOnlyByEndAbortOrReset := by
  unfold Obligations.HaltEndsOnlyByEndAbortOrReset
  refine ⟨fun s t e rest hhalt hin h => ?halt, fun s t e rest hrec hin h => ?cmdErr, fun s rest hin => ?clrErr⟩
  case halt =>
    rcases command_or_reset_presented e with ⟨w, rfl⟩ | he
    · rcases step_command_in_halt hhalt hin h with ⟨hw, rfl⟩ | ⟨hw, hmode⟩
      · exact .inr ⟨rfl, .inl ⟨by simpa using hw, rfl, rfl⟩⟩
      · exact .inl ⟨hmode, by simpa [not_or] using hw⟩
    · rw [step_of_reset_presented hin he] at h
      cases h
      exact .inr ⟨rfl, .inr he⟩
  case cmdErr =>
    rcases command_or_reset_presented e with ⟨w, rfl⟩ | he
    · rcases step_command_recorded hrec hin h with ⟨rfl, hnone⟩ | ⟨hw, hkept⟩
      · exact .inr ⟨hnone, .inl rfl⟩
      · exact .inl ⟨hkept, by simpa using hw⟩
    · rw [step_of_reset_presented hin he] at h
      cases h
      exact .inr ⟨rfl, .inr he⟩
  case clrErr => exact step_clrErr hin

/-! ### The two causes of INVALID_CHAR -/

/-- After a character the frame is still open only when it was open before, and the character is counted
(42_decoder.md R142). -/
theorem exec_decSym_into_dec {c : Byte} {s t : State} (h : exec (.decSym c) s = .next t) (hdec : t.mode = .dec) :
    s.mode = .dec ∧ t.incnt = s.incnt + 1 := by
  rcases exec_cases h with ⟨hill, -⟩ | ⟨hok, -, rfl⟩ | ⟨hdrop, rfl⟩ | ⟨hseq, rfl⟩
  · cases hill
  · exact ⟨by simpa [modeRule_eq_ok_iff] using hok, decSymEffect_incnt c s⟩
  · rw [hdec] at hdrop
    cases hdrop
  · rw [State.raiseCmdError_mode] at hdec
    rw [hdec] at hseq
    cases hseq

/-- INCNT counts the characters of a frame that is still open after them, skipped ones included, modulo 2^32
(10_state.md R31, R36). -/
theorem runAll_decSym_incnt (cs : List Byte) {s t : State} (h : runAll (cs.map .decSym) s = .next t)
    (hdec : t.mode = .dec) : s.mode = .dec ∧ t.incnt = s.incnt + BitVec.ofNat 32 cs.length := by
  induction cs generalizing s with
  | nil =>
    cases h
    exact ⟨hdec, (BitVec.add_zero _).symm⟩
  | cons c cs ih =>
    obtain ⟨u, hu⟩ := exec_next (.decSym c) s
    rw [List.map_cons, runAll_cons hu] at h
    obtain ⟨hopen, hcount⟩ := ih h
    obtain ⟨hs, hone⟩ := exec_decSym_into_dec hu hopen
    refine ⟨hs, ?_⟩
    rw [hcount, hone, List.length_cons, Nat.add_comm, BitVec.ofNat_add, BitVec.add_assoc]
    rfl

/-- Settles O47: in DEC, DEC_SYM's effect enters HALT with INVALID_CHAR at INCNT when it refuses the character, and
writes neither MODE nor the verdict otherwise; INCNT starts at 0 in DEC_BEGIN's frame and counts every character. -/
theorem invalidCharHasExactlyTwoCauses : Obligations.InvalidCharHasExactlyTwoCauses := by
  unfold Obligations.InvalidCharHasExactlyTwoCauses
  refine ⟨fun s c hdec => ⟨decSymEffect c s, exec_of_mem_okModes rfl (by simp [hdec]), ?causes⟩,
    fun s t cs hidle hrun hdec => ?position⟩
  case causes =>
    by_cases hrefuses : s.Refuses c
    · rw [decSymEffect_of_refuses hrefuses]
      exact ⟨iff_of_true rfl hrefuses, fun _ => ⟨rfl, rfl⟩, fun hne => absurd rfl hne⟩
    · obtain ⟨_, _, _, _, _, _, heq⟩ := decSymEffect_of_not_refuses hrefuses
      have hopen : s.mode ≠ .halt := by simp [hdec]
      rw [heq]
      exact ⟨iff_of_false hopen hrefuses, fun hhalt => absurd hhalt hopen, fun _ => ⟨rfl, rfl⟩⟩
  case position =>
    have hbegin : exec .decBegin s = .next (s.openFrame .dec) := exec_of_mem_okModes rfl (by simp [hidle])
    rw [runAll_cons hbegin] at hrun
    rw [(runAll_decSym_incnt cs hrun hdec).2]
    exact BitVec.zero_add _

end Machine

end Sys2Proof
end

section
/-! The reset wins over a command presented with it (70_reset_and_hazards.md R231). -/

namespace Sys2Proof.Machine

/-- Settles O27: on either event the step is resetEvent on the state whose input is the rest, so the word has no part in
it. -/
theorem resetWinsOverACommand : Obligations.ResetWinsOverACommand := by
  unfold Obligations.ResetWinsOverACommand
  intro s w rest hinput
  have hreset : step { s with input := .reset :: rest } = .next (State.resetEvent { s with input := rest }) :=
    step_reset _ rest rfl
  rw [step_commandWithReset s w rest hinput, hreset]

end Sys2Proof.Machine
end

section
/-! The decoder and the encoder are inverse to each other, the decoder is total, and a step runs the command its word
decodes to (00_scope.md R6; 30_encoding.md R70 to R79; 20_memory.md R60). -/

namespace Sys2Proof

/-- Settles O5: each layout gives back the fields the encoder put into it. -/
theorem decodeOfEncodeIsTheCommand : Obligations.DecodeOfEncodeIsTheCommand := by
  unfold Obligations.DecodeOfEncodeIsTheCommand
  intro i hi
  cases i with
  | cfgWr => exact decode_encode_cfgWr hi
  | skipSet c v => exact decode_encode_skipSet c v
  | encByte b => exact decode_encode_encByte b
  | decSym c => exact decode_encode_decSym c
  | sizeEnc n => exact decode_encode_sizeEnc n
  | sizeDec n => exact decode_encode_sizeDec n
  | _ => rfl

/-- A row whose low p bits are operands gives a command whose encoding is the word, when the command's operands are
those bits (30_encoding.md R71, R73). -/
theorem encode_of_rowDecode_ok {w m : Word} {i j : Instr} (p : Nat)
    (h : rowDecode w m (BitVec.ofNat 32 (2 ^ 32 - 2 ^ p)) j = .ok i) (hp : p ≤ 32) (hm : m.toNat = 2 ^ 28 * j.opcode)
    (hwf : j.wellFormed = true) (hval : j.operandValue = w.toNat % 2 ^ p) : i.wellFormed = true ∧ encode i = w := by
  obtain ⟨hmatch, rfl⟩ := (rowDecode_eq_ok_iff _ _ _ _ _).1 h
  have hhigh := (row_match_iff w m p hp).1 hmatch
  refine ⟨hwf, BitVec.eq_of_toNat_eq ?_⟩
  calc (encode j).toNat = 2 ^ 28 * j.opcode + j.operandValue := encode_toNat j
    _ = w.toNat / 2 ^ p * 2 ^ p + w.toNat % 2 ^ p := by rw [hhigh, hm, hval]
    _ = w.toNat := Nat.div_add_mod' _ _

/-- Layout C's fields make up the word's low six bits (30_encoding.md R71). -/
theorem operandValue_layoutC (w : Word) : (Instr.cfgWr (alphaField w) (w.getLsbD 3) (w.getLsbD 4)
    (w.getLsbD 5)).operandValue = w.toNat % 2 ^ 6 := by
  simp only [Instr.operandValue, alphaField_toNat, bit_toNat]
  omega

/-- Layout S's fields make up the word's low nine bits (30_encoding.md R71). -/
theorem operandValue_layoutS (w : Word) :
    (Instr.skipSet (byteField w) (w.getLsbD 8)).operandValue = w.toNat % 2 ^ 9 := by
  simp only [Instr.operandValue, byteField_toNat, bit_toNat]
  omega

theorem wellFormed_of_bind_alphaDecode_ok {w m k : Word} {i j : Instr}
    (h : (rowDecode w m k j).bind alphaDecode = .ok i) : j.wellFormed = true := by
  rw [rowDecode_ok_of_bind_alphaDecode_ok h] at h
  by_contra hill
  simp [Except.bind, alphaDecode, hill] at h

/-- Settles O6: the arm that decodes the word is a row, whose mask fixes the high bits of the word, and whose command
has the low bits for operands. -/
theorem encodeOfDecodeIsTheWord : Obligations.EncodeOfDecodeIsTheWord := by
  unfold Obligations.EncodeOfDecodeIsTheWord
  intro w i h
  unfold decode at h
  split at h
  case h_2 =>
    exact encode_of_rowDecode_ok 6 (rowDecode_eq_of_bind_alphaDecode_ok h) (by decide) rfl
      (wellFormed_of_bind_alphaDecode_ok h) (operandValue_layoutC w)
  case h_3 => exact encode_of_rowDecode_ok 9 h (by decide) rfl rfl (operandValue_layoutS w)
  case h_6 | h_9 => exact encode_of_rowDecode_ok 8 h (by decide) rfl rfl (byteField_toNat w)
  case h_13 | h_14 => exact encode_of_rowDecode_ok 24 h (by decide) rfl rfl (sizeField_toNat w)
  case h_15 => cases h
  all_goals exact encode_of_rowDecode_ok 0 h (by decide) rfl rfl (Nat.mod_one _).symm

/-- A word that decodes to a command is that command's word. -/
theorem encode_eq_of_decode_ok {w : Word} {i : Instr} (h : decode w = .ok i) : encode i = w :=
  (encodeOfDecodeIsTheWord w i h).2

/-! ### The decoder is total -/

/-- A word that its OP's row refuses matches no row. -/
theorem no_row_of_rowDecode_error {w m k : Word} {n : Nat} {j : Instr} {e : IllegalWord}
    (hrow : opcodeRows[n]? = some (m, k)) (hop : (opField w).toNat = n) (h : rowDecode w m k j = .error e) :
    ∀ r ∈ opcodeRows, w &&& r.2 ≠ r.1 := by
  refine no_row_of_own_row_refuses hrow ((opField_toNat w).symm.trans hop) fun hmatch => ?_
  rw [rowDecode, if_pos hmatch] at h
  cases h

/-- OP 0xE and 0xF have no row (30_encoding.md R75). -/
theorem no_row_of_reservedOpcode {w : Word} (hop : opcodeRows.length ≤ w.toNat / 2 ^ 28) :
    ∀ r ∈ opcodeRows, w &&& r.2 ≠ r.1 := by
  intro r hr hmatch
  obtain ⟨n, hrow⟩ := List.mem_iff_getElem?.1 hr
  rw [op_of_row_match hrow hmatch] at hop
  exact absurd (List.getElem?_eq_some_iff.1 hrow).1 (Nat.not_lt.2 hop)

/-- CFG_WR's row refuses a word for its reserved bits, its value check for ALPHA 6 or 7 (30_encoding.md R74, R76). -/
theorem cfgWr_refused_cases {w m k : Word} {u p x : Bool} {e : IllegalWord}
    (h : (rowDecode w m k (.cfgWr (alphaField w) u p x)).bind alphaDecode = .error e) :
    rowDecode w m k (.cfgWr (alphaField w) u p x) = .error e ∨ (w &&& k = m ∧ 6 ≤ w.toNat % 8) := by
  rcases rowDecode_cases w m k (.cfgWr (alphaField w) u p x) with ⟨hmatch, hok⟩ | ⟨-, herror⟩
  · refine .inr ⟨hmatch, ?_⟩
    by_contra hlegal
    have hwf : (Instr.cfgWr (alphaField w) u p x).wellFormed = true :=
      decide_eq_true (by rw [alphaField_toNat]; exact Nat.not_le.1 hlegal)
    rw [hok, Except.bind, alphaDecode, if_pos hwf] at h
    cases h
  · rw [herror] at h
    exact .inl (herror.trans h)

/-- The two grounds on which the decoder refuses a word (30_encoding.md R74 to R76). -/
theorem no_row_or_alphabetCode_of_decode_error {w : Word} {e : IllegalWord} (h : decode w = .error e) :
    (∀ r ∈ opcodeRows, w &&& r.2 ≠ r.1) ∨ (w &&& 0xFFFFFFC0 = 0x10000000 ∧ 6 ≤ w.toNat % 8) := by
  unfold decode at h
  split at h
  case h_2 hop => exact (cfgWr_refused_cases h).imp_left (no_row_of_rowDecode_error rfl hop)
  case h_15 =>
    refine .inl (no_row_of_reservedOpcode ?_)
    rw [← show _ = w.toNat / 2 ^ 28 from opField_toNat w]
    change 14 ≤ _
    simp only [imp_false] at *
    omega
  all_goals exact .inl (no_row_of_rowDecode_error rfl ‹_› h)

/-- Settles O4: two rows that match one word have the word's OP for their number, so they are one row; the decoder
refuses a word on no ground but the two. -/
theorem decoderIsTotalAndUnambiguous : Obligations.DecoderIsTotalAndUnambiguous := by
  unfold Obligations.DecoderIsTotalAndUnambiguous
  refine fun w => ⟨fun r hr r' hr' hmatch hmatch' => ?unambiguous,
    ⟨fun ⟨i, hi⟩ => ?legal, fun ⟨hrow, halpha⟩ => ?total⟩⟩
  case unambiguous =>
    obtain ⟨n, hn⟩ := List.mem_iff_getElem?.1 hr
    obtain ⟨n', hn'⟩ := List.mem_iff_getElem?.1 hr'
    obtain rfl : n = n' := (op_of_row_match hn hmatch).symm.trans (op_of_row_match hn' hmatch')
    exact Option.some.inj (hn.symm.trans hn')
  case legal =>
    refine ⟨exists_row_of_decode_ok hi, fun ⟨hrow, halpha⟩ => ?_⟩
    rw [decode_alphabetCode hrow halpha] at hi
    cases hi
  case total =>
    obtain ⟨r, hr, hmatch⟩ := hrow
    cases hdec : decode w with
    | ok i => exact ⟨i, rfl⟩
    | error e =>
      exact ((no_row_or_alphabetCode_of_decode_error hdec).elim (fun hno => hno r hr hmatch) halpha).elim

/-- Settles O7: the decoder evaluates on each of the words. -/
theorem wordsOfTheOpcodeMapDecode : Obligations.WordsOfTheOpcodeMapDecode :=
  ⟨rfl, rfl, rfl, rfl, rfl, rfl, rfl⟩

namespace Machine

/-! ### Steps -/

/-- Settles O1: the step takes the word off the list and runs its command; a word presented first leaves the list as it
was before. -/
theorem stepRunsTheDecodedCommand : Obligations.StepRunsTheDecodedCommand := by
  unfold Obligations.StepRunsTheDecodedCommand
  refine ⟨fun s w rest i hin hdec => step_of_decode_ok hin hdec, fun s w i hw htable => ?_⟩
  rw [decodeTableWord, if_pos (Nat.mod_lt _ (by decide))] at htable
  have hdec : decode (BitVec.ofNat 32 (w % 2 ^ 32)) = .ok i := by
    cases hword : decode (BitVec.ofNat 32 (w % 2 ^ 32)) with
    | error e =>
      rw [hword] at htable
      cases htable
    | ok j =>
      rw [hword] at htable
      exact congrArg Except.ok (Option.some.inj htable)
  exact step_of_decode_ok (s := s.withFetchWord 32 w) rfl hdec

/-- Settles O2: an event is a reset or a command word, and a word is illegal or a command, which has a next state. -/
theorem everyStepAnswersNext : Obligations.EveryStepAnswersNext := by
  unfold Obligations.EveryStepAnswersNext
  intro s
  rcases hin : s.input with _ | ⟨e, rest⟩
  · exact ⟨s, step_nothing s hin⟩
  · rcases command_or_reset_presented e with ⟨w, rfl⟩ | he
    · cases hdec : decode w with
      | error err => exact ⟨_, raisesIllegal_of_decode_error hdec s rest hin⟩
      | ok i =>
        rw [step_of_decode_ok hin hdec]
        exact exec_next i _
    · exact ⟨_, step_of_reset_presented hin he⟩

/-- Settles O8, by induction on the commands: each is the next word's, and it neither reads nor writes the words that
wait behind it. -/
theorem presentedCommandsRunInOrder : Obligations.PresentedCommandsRunInOrder := by
  unfold Obligations.PresentedCommandsRunInOrder
  intro is s rest hwf
  induction is generalizing s with
  | nil => rfl
  | cons i is ih =>
    obtain ⟨hi, his⟩ := List.forall_mem_cons.1 hwf
    obtain ⟨t, ht⟩ := exec_next i { s with input := rest }
    have hstep := (step_of_decode_ok (s := { s with input := (i :: is).map (fun i => .command (encode i)) ++ rest })
      rfl (decodeOfEncodeIsTheCommand i hi)).trans (exec_input ht _)
    have hrest : { t with input := rest } = t := by rw [← show t.input = rest from exec_keeps_input ht]
    rw [runAll_cons ht]
    exact (core_run_succ is.length hstep).trans ((ih t his).trans (by rw [hrest]))

end Machine

end Sys2Proof
end

section
/-! The assembler's texts: the words of the pseudo-instructions, and the refusal of operands out of range
(30_encoding.md R79, R80). -/

namespace Sys2Proof.Machine

theorem inRange_of_lt {n limit : Nat} (h : n < limit) (w : Word) : inRange n limit w = .ok [w] := if_pos h

theorem inRange_of_le {n limit : Nat} (h : limit ≤ n) (w : Word) : inRange n limit w = .error .outOfRange :=
  if_neg (Nat.not_lt.2 h)

/-- SKIP_SET checks its character before its bit (30_encoding.md R79). -/
theorem statementWords_skipSet_outOfRange {c v : Nat} (h : 256 ≤ c ∨ 2 ≤ v) :
    statementWords "SKIP_SET" [.number c, .number v] = .error .outOfRange := by
  change (if c < 256 then inRange v 2 _ else _) = _
  by_cases hc : c < 256
  · rw [if_pos hc, inRange_of_le (h.resolve_left (Nat.not_le.2 hc))]
  · rw [if_neg hc]

/-- Settles O9: a statement's words are those of the arm of its mnemonic, which either expands its operands or asks
inRange. -/
theorem assemblerExpandsAndRefuses : Obligations.AssemblerExpandsAndRefuses := by
  unfold Obligations.AssemblerExpandsAndRefuses
  refine ⟨?cfg, fun bs => ?encode, fun cs => ?decode, fun cs => ?skips, fun c => ?unskip, fun n hn => ?byteRange,
    fun n hn => ?sizeRange, fun c v hcv => statementWords_skipSet_outOfRange hcv⟩
  case cfg => decide
  case encode =>
    change Except.ok ((encodeFrame bs).map encode) = _
    simp [encodeFrame, encode, Function.comp_def]
  case decode =>
    change Except.ok ((decodeFrame cs).map encode) = _
    simp [decodeFrame, encode, Function.comp_def]
  case skips =>
    change Except.ok ((skipsExpansion cs).map encode) = _
    rw [skipsExpansion, List.map_map]
    rfl
  case unskip =>
    change inRange c.toNat 256 (encode (.skipSet (BitVec.ofNat 8 c.toNat) false)) = _
    rw [inRange_of_lt c.isLt, BitVec.ofNat_toNat, BitVec.setWidth_eq]
    rfl
  case byteRange => exact ⟨inRange_of_le hn _, inRange_of_le hn _, inRange_of_le hn _, inRange_of_le hn _⟩
  case sizeRange => exact ⟨inRange_of_le hn _, inRange_of_le hn _⟩

end Sys2Proof.Machine
end

section
/-! What one step can do: every command has its effect or is discarded; which registers each effect writes; and which
commands may therefore write a register (10_state.md sections 3 to 7; 60_exceptions.md R201, R205). -/

namespace Sys2Proof.Machine

/-- t is s after a command that was discarded: nothing is written, save that a first command error is recorded
(60_exceptions.md R201, R205). -/
def State.Discards (s t : State) : Prop :=
  ∃ e, t = { s with cmdErr := e } ∧
    (e = s.cmdErr ∨ s.cmdErr = none ∧ (e = some .illegal ∨ e = some .sequence))

theorem State.discards_self (s : State) : s.Discards s := ⟨s.cmdErr, rfl, .inl rfl⟩

theorem State.discards_raiseCmdError (s : State) (kind : CommandError) : s.Discards (s.raiseCmdError kind) := by
  refine ⟨_, s.raiseCmdError_eq kind, ?_⟩
  cases hrec : s.cmdErr with
  | none => cases kind <;> simp
  | some e => exact .inl rfl

/-- A command has its effect, in one of its ok modes, or is discarded (60_exceptions.md R201). -/
theorem exec_effect_or_discards {i : Instr} {s t : State} (h : exec i s = .next t) :
    (i.wellFormed = true ∧ s.mode ∈ okModes i ∧ t = effectOf i s) ∨
    (¬(i.wellFormed = true ∧ s.mode ∈ okModes i) ∧ s.Discards t) := by
  rw [← modeRule_eq_ok_iff]
  rcases exec_cases h with ⟨hill, rfl⟩ | ⟨hok, hi, rfl⟩ | ⟨hdrop, rfl⟩ | ⟨hseq, rfl⟩
  · exact .inr ⟨by simp [hill], s.discards_raiseCmdError .illegal⟩
  · exact .inl ⟨hi, hok, rfl⟩
  · exact .inr ⟨by simp [hdrop], t.discards_self⟩
  · exact .inr ⟨by simp [hseq], s.discards_raiseCmdError .sequence⟩

/-- A command word is discarded or decodes to a command that has its effect (60_exceptions.md R209). -/
theorem step_command_effect_or_discards {s t : State} {w : Word} {rest : List PortEvent}
    (hin : s.input = .command w :: rest) (h : step s = .next t) :
    (∃ i, decode w = .ok i ∧ i.wellFormed = true ∧ s.mode ∈ okModes i ∧ t = effectOf i { s with input := rest }) ∨
    State.Discards { s with input := rest } t := by
  cases hdec : decode w with
  | error e =>
    rw [step_command s w rest hin, hdec] at h
    cases h
    exact .inr (State.discards_raiseCmdError _ _)
  | ok i =>
    rw [step_of_decode_ok hin hdec] at h
    exact (exec_effect_or_discards h).imp (fun heffect => ⟨i, rfl, heffect⟩) (·.2)

/-- What holds under a change of the presented events or of CMDERR, after a reset, and after every command's effect in
an ok mode, is kept by every step. -/
theorem step_keeps {P : State → Prop} (hinput : ∀ s rest, P s → P { s with input := rest })
    (hcmdErr : ∀ s e, P s → P { s with cmdErr := e }) (hreset : ∀ s, P s → P (State.resetEvent s))
    (heffect : ∀ i s, i.wellFormed = true → s.mode ∈ okModes i → P s → P (effectOf i s)) {s t : State} (hs : P s)
    (h : step s = .next t) : P t := by
  rcases hin : s.input with _ | ⟨e, rest⟩
  · rw [step_nothing s hin] at h
    cases h
    exact hs
  · rcases command_or_reset_presented e with ⟨w, rfl⟩ | he
    · rcases step_command_effect_or_discards hin h with ⟨i, -, hi, hmode, rfl⟩ | ⟨e, rfl, -⟩
      · exact heffect i _ hi hmode (hinput s rest hs)
      · exact hcmdErr _ e (hinput s rest hs)
    · rw [step_of_reset_presented hin he] at h
      cases h
      exact hreset _ (hinput s rest hs)

/-- Settles O11: an effect keeps CMDERR, but for CLR_ERR's, and a discarded command records a first error or nothing. -/
theorem commandErrorIsFirstAndAlone : Obligations.CommandErrorIsFirstAndAlone := by
  unfold Obligations.CommandErrorIsFirstAndAlone
  intro s t w rest hin h
  rcases step_command_effect_or_discards hin h with ⟨i, hdec, hi, -, rfl⟩ | ⟨e, rfl, he⟩
  · by_cases hclr : i = .clrErr
    · subst hclr
      exact .inr (.inl ⟨(decode_eq_clrErr_iff w).1 hdec, rfl⟩)
    · exact .inl (effectOf_cmdErr hi hclr _)
  · exact he.imp id fun hfirst => .inr ⟨hfirst.1, hfirst.2, rfl⟩

/-- Settles O12, by induction on the characters: HALT is DEC_SYM's drop cell. -/
theorem haltDropsEveryCharacter : Obligations.HaltDropsEveryCharacter := by
  unfold Obligations.HaltDropsEveryCharacter
  intro cs s hhalt
  induction cs with
  | nil => rfl
  | cons c cs ih =>
    have hdrop : exec (.decSym c) s = .next s := exec_drop rfl (by rw [hhalt]; rfl)
    rw [List.map_cons, runAll_cons hdrop, ih]

/-! ### What each effect leaves unchanged -/

section Frames

variable (b c : Byte) (s : State)

@[simp] theorem encByteEffect_cfg : (encByteEffect b s).cfg = s.cfg := by rw [encByteEffect_eq]
@[simp] theorem encByteEffect_mode : (encByteEffect b s).mode = s.mode := by rw [encByteEffect_eq]
@[simp] theorem encByteEffect_datacnt : (encByteEffect b s).datacnt = s.datacnt := by rw [encByteEffect_eq]
@[simp] theorem encByteEffect_padcnt : (encByteEffect b s).padcnt = s.padcnt := by rw [encByteEffect_eq]
@[simp] theorem encByteEffect_err : (encByteEffect b s).err = s.err := by rw [encByteEffect_eq]
@[simp] theorem encByteEffect_errPos : (encByteEffect b s).errPos = s.errPos := by rw [encByteEffect_eq]
@[simp] theorem encByteEffect_done : (encByteEffect b s).done = s.done := by rw [encByteEffect_eq]
@[simp] theorem encByteEffect_size : (encByteEffect b s).size = s.size := by rw [encByteEffect_eq]
@[simp] theorem encByteEffect_skip : (encByteEffect b s).skip = s.skip := by rw [encByteEffect_eq]
@[simp] theorem encByteEffect_rom : (encByteEffect b s).rom = s.rom := by rw [encByteEffect_eq]

@[simp] theorem encEndEffect_cfg : (encEndEffect s).cfg = s.cfg := by simp [encEndEffect]
@[simp] theorem encEndEffect_mode : (encEndEffect s).mode = .idle := by simp [encEndEffect]
@[simp] theorem encEndEffect_incnt : (encEndEffect s).incnt = s.incnt := by simp [encEndEffect]
@[simp] theorem encEndEffect_datacnt : (encEndEffect s).datacnt = s.datacnt := by simp [encEndEffect]
@[simp] theorem encEndEffect_padcnt : (encEndEffect s).padcnt = s.padcnt := by simp [encEndEffect]
@[simp] theorem encEndEffect_err : (encEndEffect s).err = s.err := by simp [encEndEffect]
@[simp] theorem encEndEffect_errPos : (encEndEffect s).errPos = s.errPos := by simp [encEndEffect]
@[simp] theorem encEndEffect_done : (encEndEffect s).done = true := by simp [encEndEffect]
@[simp] theorem encEndEffect_size : (encEndEffect s).size = s.size := by simp [encEndEffect]
@[simp] theorem encEndEffect_skip : (encEndEffect s).skip = s.skip := by simp [encEndEffect]
@[simp] theorem encEndEffect_rom : (encEndEffect s).rom = s.rom := by simp [encEndEffect]

/-- DEC_SYM writes neither the configuration nor SIZE, DONE and CMDERR (42_decoder.md R142). -/
theorem decSymEffect_frame : ∃ mode acc bits datacnt padcnt outcnt err errPos out, decSymEffect c s =
    { s with mode := mode, incnt := s.incnt + 1, acc := acc, bits := bits, datacnt := datacnt, padcnt := padcnt,
             outcnt := outcnt, err := err, errPos := errPos, out := out } := by
  by_cases h : s.Refuses c
  · exact ⟨_, _, _, _, _, _, _, _, _, decSymEffect_of_refuses h⟩
  · obtain ⟨_, _, _, _, _, _, heq⟩ := decSymEffect_of_not_refuses h
    exact ⟨_, _, _, _, _, _, _, _, _, heq⟩

@[simp] theorem decSymEffect_cfg : (decSymEffect c s).cfg = s.cfg := by
  obtain ⟨_, _, _, _, _, _, _, _, _, heq⟩ := decSymEffect_frame c s; rw [heq]
@[simp] theorem decSymEffect_done : (decSymEffect c s).done = s.done := by
  obtain ⟨_, _, _, _, _, _, _, _, _, heq⟩ := decSymEffect_frame c s; rw [heq]
@[simp] theorem decSymEffect_size : (decSymEffect c s).size = s.size := by
  obtain ⟨_, _, _, _, _, _, _, _, _, heq⟩ := decSymEffect_frame c s; rw [heq]
@[simp] theorem decSymEffect_skip : (decSymEffect c s).skip = s.skip := by
  obtain ⟨_, _, _, _, _, _, _, _, _, heq⟩ := decSymEffect_frame c s; rw [heq]
@[simp] theorem decSymEffect_rom : (decSymEffect c s).rom = s.rom := by
  obtain ⟨_, _, _, _, _, _, _, _, _, heq⟩ := decSymEffect_frame c s; rw [heq]

/-- DEC_END's verdicts: success or INVALID_LENGTH in DEC, none in any other mode (42_decoder.md R148). -/
theorem decVerdict_cases :
    (s.mode = .dec ∧ decVerdict s = { s with done := true }) ∨
    (s.mode = .dec ∧ decVerdict s = { s with err := some .invalidLength, errPos := s.incnt }) ∨
    decVerdict s = s := by
  by_cases hdec : s.mode = .dec
  · rw [decVerdict_dec hdec]
    cases s.lengthOk
    · exact .inr (.inl ⟨hdec, rfl⟩)
    · exact .inl ⟨hdec, rfl⟩
  · exact .inr (.inr (decVerdict_other hdec))

/-- DEC_END's verdict is in DONE, ERR and ERR_POS alone (42_decoder.md R148). -/
theorem decVerdict_frame : ∃ done err errPos, decVerdict s = { s with done := done, err := err, errPos := errPos } := by
  rcases decVerdict_cases s with ⟨-, heq⟩ | ⟨-, heq⟩ | heq <;> exact ⟨_, _, _, heq⟩

@[simp] theorem decVerdict_cfg : (decVerdict s).cfg = s.cfg := by
  obtain ⟨_, _, _, heq⟩ := decVerdict_frame s; rw [heq]
@[simp] theorem decVerdict_incnt : (decVerdict s).incnt = s.incnt := by
  obtain ⟨_, _, _, heq⟩ := decVerdict_frame s; rw [heq]
@[simp] theorem decVerdict_datacnt : (decVerdict s).datacnt = s.datacnt := by
  obtain ⟨_, _, _, heq⟩ := decVerdict_frame s; rw [heq]
@[simp] theorem decVerdict_padcnt : (decVerdict s).padcnt = s.padcnt := by
  obtain ⟨_, _, _, heq⟩ := decVerdict_frame s; rw [heq]
@[simp] theorem decVerdict_size : (decVerdict s).size = s.size := by
  obtain ⟨_, _, _, heq⟩ := decVerdict_frame s; rw [heq]
@[simp] theorem decVerdict_skip : (decVerdict s).skip = s.skip := by
  obtain ⟨_, _, _, heq⟩ := decVerdict_frame s; rw [heq]
@[simp] theorem decVerdict_out : (decVerdict s).out = s.out := by
  obtain ⟨_, _, _, heq⟩ := decVerdict_frame s; rw [heq]
@[simp] theorem decVerdict_rom : (decVerdict s).rom = s.rom := by
  obtain ⟨_, _, _, heq⟩ := decVerdict_frame s; rw [heq]

end Frames

/-- CFG_WR's effect, well formed, writes CFG alone (43_control.md R171). -/
theorem effectOf_cfgWr {alpha : BitVec 3} {u p x : Bool} (h : (Instr.cfgWr alpha u p x).wellFormed = true)
    (s : State) : ∃ cfg, effectOf (.cfgWr alpha u p x) s = { s with cfg := cfg } := by
  obtain ⟨a, rfl⟩ := exists_alphabetCode alpha (of_decide_eq_true h)
  exact ⟨_, effectOf_cfgWr_alphabetCode a u p x s⟩

/-! ### Who writes a register -/

section Writers

variable {i : Instr} {s : State}

theorem effectOf_cfg (hi : ∀ a u p x, i ≠ .cfgWr a u p x) : (effectOf i s).cfg = s.cfg := by
  cases i with
  | cfgWr a u p x => exact absurd rfl (hi a u p x)
  | encByte | encEnd | decSym | decEnd => simp [effectOf]
  | _ => rfl

theorem effectOf_skip (hwf : i.wellFormed = true) (hi : i ≠ .skipClr ∧ ∀ c v, i ≠ .skipSet c v) :
    (effectOf i s).skip = s.skip := by
  cases i with
  | skipClr | skipSet => simp at hi
  | cfgWr a u p x =>
    obtain ⟨_, heq⟩ := effectOf_cfgWr hwf s
    rw [heq]
  | encByte | encEnd | decSym | decEnd => simp [effectOf]
  | _ => rfl

theorem effectOf_size (hwf : i.wellFormed = true) (hi : ∀ n, i ≠ .sizeEnc n ∧ i ≠ .sizeDec n) :
    (effectOf i s).size = s.size := by
  cases i with
  | sizeEnc | sizeDec => simp at hi
  | cfgWr a u p x =>
    obtain ⟨_, heq⟩ := effectOf_cfgWr hwf s
    rw [heq]
  | encByte | encEnd | decSym | decEnd => simp [effectOf]
  | _ => rfl

/-- DONE is set by the END commands, which leave ERR when they set it, and cleared by the BEGIN commands (10_state.md
R38). -/
theorem effectOf_done (hwf : i.wellFormed = true) (hne : (effectOf i s).done ≠ s.done) :
    (effectOf i s).done = true ∧ (i = .encEnd ∨ i = .decEnd) ∧ (effectOf i s).err = s.err ∨
      (effectOf i s).done = false ∧ (i = .encBegin ∨ i = .decBegin) := by
  cases i with
  | encBegin | decBegin => exact .inr ⟨rfl, by simp⟩
  | encEnd => exact .inl (by simp [effectOf])
  | decEnd =>
    rcases decVerdict_cases s with ⟨-, heq⟩ | ⟨-, heq⟩ | heq
    · exact .inl (by simp [effectOf, heq])
    all_goals exact absurd (by simp [effectOf, heq]) hne
  | cfgWr a u p x =>
    obtain ⟨_, heq⟩ := effectOf_cfgWr hwf s
    exact absurd (by rw [heq]) hne
  | encByte | decSym => exact absurd (by simp [effectOf]) hne
  | _ => exact absurd rfl hne

/-- ERR and ERR_POS are written by the decode errors and cleared by the BEGIN commands (10_state.md R35, R36). -/
theorem effectOf_err (hwf : i.wellFormed = true) (hmode : s.mode ∈ okModes i)
    (hne : (effectOf i s).err ≠ s.err ∨ (effectOf i s).errPos ≠ s.errPos) :
    i = .encBegin ∨ i = .decBegin ∨
      (i = .decEnd ∧ s.mode = .dec ∧ (effectOf i s).err = some .invalidLength) ∨
      ((∃ c, i = .decSym c) ∧ s.mode = .dec ∧ (effectOf i s).err = some .invalidChar) := by
  cases i with
  | encBegin | decBegin => simp
  | decEnd =>
    rcases decVerdict_cases s with ⟨-, heq⟩ | ⟨hdec, heq⟩ | heq
    · simp [effectOf, heq] at hne
    · exact .inr (.inr (.inl ⟨rfl, hdec, by simp [effectOf, heq]⟩))
    · simp [effectOf, heq] at hne
  | decSym c =>
    by_cases hrefuses : s.Refuses c
    · refine .inr (.inr (.inr ⟨⟨c, rfl⟩, by simpa using hmode, ?_⟩))
      rw [effectOf, decSymEffect_of_refuses hrefuses]
    · obtain ⟨_, _, _, _, _, _, heq⟩ := decSymEffect_of_not_refuses hrefuses
      simp [effectOf, heq] at hne
  | cfgWr a u p x =>
    obtain ⟨_, heq⟩ := effectOf_cfgWr hwf s
    simp [heq] at hne
  | encByte | encEnd => simp [effectOf] at hne
  | _ => simp [effectOf] at hne

theorem effectOf_incnt (hwf : i.wellFormed = true) (hne : (effectOf i s).incnt ≠ s.incnt) :
    i = .encBegin ∨ i = .decBegin ∨ (∃ b, i = .encByte b) ∨ ∃ c, i = .decSym c := by
  cases i with
  | encBegin | decBegin | encByte | decSym => simp
  | cfgWr a u p x =>
    obtain ⟨_, heq⟩ := effectOf_cfgWr hwf s
    exact absurd (by rw [heq]) hne
  | encEnd | decEnd => exact absurd (by simp [effectOf]) hne
  | _ => exact absurd rfl hne

theorem effectOf_datacnt_padcnt (hwf : i.wellFormed = true)
    (hne : (effectOf i s).datacnt ≠ s.datacnt ∨ (effectOf i s).padcnt ≠ s.padcnt) :
    i = .encBegin ∨ i = .decBegin ∨ ∃ c, i = .decSym c := by
  cases i with
  | encBegin | decBegin | decSym => simp
  | cfgWr a u p x =>
    obtain ⟨_, heq⟩ := effectOf_cfgWr hwf s
    simp [heq] at hne
  | _ => simp [effectOf] at hne

end Writers

/-- Settles O15: only CFG_WR's effect writes CFG and only the SKIP commands' write SKIP; IDLE is their one ok mode; a
discarded command writes neither. -/
theorem configurationIsFixedInsideAFrame : Obligations.ConfigurationIsFixedInsideAFrame := by
  unfold Obligations.ConfigurationIsFixedInsideAFrame
  intro s t i h
  have hcfg : t.cfg ≠ s.cfg → s.mode = .idle ∧ ∃ a u p x, i = .cfgWr a u p x := by
    intro hne
    rcases exec_effect_or_discards h with ⟨-, hmode, rfl⟩ | ⟨-, e, rfl, -⟩
    · by_contra hother
      refine hne (effectOf_cfg ?_)
      rintro a u p x rfl
      exact hother ⟨by simpa using hmode, a, u, p, x, rfl⟩
    · exact absurd rfl hne
  have hskip : t.skip ≠ s.skip → s.mode = .idle ∧ (i = .skipClr ∨ ∃ c v, i = .skipSet c v) := by
    intro hne
    rcases exec_effect_or_discards h with ⟨hwf, hmode, rfl⟩ | ⟨-, e, rfl, -⟩
    · by_contra hother
      refine hne (effectOf_skip hwf ⟨?_, ?_⟩)
      · rintro rfl
        exact hother ⟨by simpa using hmode, .inl rfl⟩
      · rintro c v rfl
        exact hother ⟨by simpa using hmode, .inr ⟨c, v, rfl⟩⟩
    · exact absurd rfl hne
  refine ⟨hcfg, hskip, fun hframe => ⟨?_, ?_⟩⟩
  · by_contra hne
    exact hframe (hcfg hne).1
  · by_contra hne
    exact hframe (hskip hne).1

/-- Settles O16: a discarded command writes none of the registers, and an effect writes each as its writers' lemma
says. -/
theorem statusRegistersHaveTheirWritersOnly : Obligations.StatusRegistersHaveTheirWritersOnly := by
  unfold Obligations.StatusRegistersHaveTheirWritersOnly
  intro s t i h
  rcases exec_effect_or_discards h with ⟨hwf, hmode, rfl⟩ | ⟨-, e, rfl, -⟩
  · refine ⟨fun hne => ?size, effectOf_done hwf, effectOf_err hwf hmode, effectOf_incnt hwf,
      effectOf_datacnt_padcnt hwf⟩
    case size =>
      by_contra hother
      exact hne (effectOf_size hwf fun n => ⟨fun hi => hother ⟨n, .inl hi⟩, fun hi => hother ⟨n, .inr hi⟩⟩)
  · simp

/-- Settles O14: an effect writes MODE as the command's rule says, the event being the command's word; a discarded
command does not write it, and a reset enters IDLE. -/
theorem modeChangesOnlyByFrameEvents : Obligations.ModeChangesOnlyByFrameEvents := by
  unfold Obligations.ModeChangesOnlyByFrameEvents
  intro s t e rest hin h
  rcases command_or_reset_presented e with ⟨w, rfl⟩ | he
  · rcases step_command_effect_or_discards hin h with ⟨i, hdec, hwf, hmode, rfl⟩ | ⟨e, rfl, -⟩
    · obtain rfl := encode_eq_of_decode_ok hdec
      cases i with
      | encBegin => exact .inr (.inl ⟨rfl, by simpa using hmode, rfl⟩)
      | encEnd => exact .inr (.inr (.inl ⟨rfl, by simpa using hmode, by simp [effectOf]⟩))
      | decBegin => exact .inr (.inr (.inr (.inl ⟨rfl, by simpa using hmode, rfl⟩)))
      | decEnd => exact .inr (.inr (.inr (.inr (.inl ⟨rfl, by simpa using hmode, rfl⟩))))
      | abort => exact .inr (.inr (.inr (.inr (.inr (.inl ⟨rfl, rfl⟩)))))
      | decSym c =>
        by_cases hrefuses : State.Refuses { s with input := rest } c
        · refine .inr (.inr (.inr (.inr (.inr (.inr (.inl ⟨⟨c, rfl⟩, by simpa using hmode, ?_⟩))))))
          simp [effectOf, decSymEffect_of_refuses hrefuses]
        · obtain ⟨_, _, _, _, _, _, heq⟩ := decSymEffect_of_not_refuses hrefuses
          exact .inl (by simp [effectOf, heq])
      | cfgWr a u p x =>
        obtain ⟨_, heq⟩ := effectOf_cfgWr hwf { s with input := rest }
        exact .inl (by rw [heq])
      | encByte b => exact .inl (by simp [effectOf])
      | _ => exact .inl rfl
    · exact .inl rfl
  · rw [step_of_reset_presented hin he] at h
    cases h
    simp [he]

/-! ### OUT -/

/-- The items an update from s to t appends to OUT, each counted in OUTCNT (00_scope.md R10). -/
def State.Emits (s t : State) (items : List Byte) : Prop :=
  t.out = s.out ++ items ∧ t.outcnt = s.outcnt + BitVec.ofNat 32 items.length

/-- A data symbol completes one byte at most (42_decoder.md R147). -/
theorem decValueEffect_emits {v : Nat} {s : State} (hv : v < 2 ^ s.k) :
    ∃ items, s.Emits (decValueEffect v s) items ∧ items.length ≤ 1 := by
  rcases decValueEffect_cases v s hv with ⟨-, heq⟩ | ⟨-, heq⟩
  · exact ⟨[], by simp [State.Emits, heq]⟩
  · exact ⟨[_], ⟨by rw [heq], by rw [heq]; rfl⟩, Nat.le_refl 1⟩

/-- A character makes one byte at most (42_decoder.md R142). -/
theorem decSymEffect_emits (c : Byte) (s : State) :
    ∃ items, s.Emits (decSymEffect c s) items ∧ items.length ≤ 1 := by
  rcases decSymEffect_cases c s with ⟨-, heq⟩ | ⟨-, -, heq⟩ | ⟨-, -, heq⟩ | ⟨v, -, -, hv, -, heq⟩
  · exact ⟨[], by simp [State.Emits, heq]⟩
  · exact ⟨[], by simp [State.Emits, heq]⟩
  · exact ⟨[], by simp [State.Emits, heq]⟩
  · rw [heq]
    exact decValueEffect_emits (s := { s with incnt := s.incnt + 1 }) hv

theorem encByteEffect_emits (b : Byte) (s : State) :
    ∃ items, s.Emits (encByteEffect b s) items ∧ items.length = (s.bits.toNat + 8) / s.k := by
  rw [encByteEffect_eq]
  exact ⟨_, ⟨rfl, by rw [List.length_map, List.length_range]⟩, by rw [List.length_map, List.length_range]⟩

theorem encEndEffect_emits (s : State) : ∃ items, s.Emits (encEndEffect s) items := by
  obtain ⟨pads, heq, -⟩ := encEndEffect_eq s
  rw [heq]
  exact ⟨_, rfl, rfl⟩

/-- The commands that append to OUT (10_state.md R42). -/
def Emitter (i : Instr) : Prop := i = .encEnd ∨ (∃ b, i = .encByte b) ∨ ∃ c, i = .decSym c

/-- A command that appends counts its items, and any other appends nothing (10_state.md R42). -/
theorem effectOf_emits {i : Instr} (hwf : i.wellFormed = true) (s : State) :
    (Emitter i ∧ ∃ items, s.Emits (effectOf i s) items) ∨ (¬Emitter i ∧ (effectOf i s).out = s.out) := by
  cases i with
  | encByte b =>
    obtain ⟨items, hitems, -⟩ := encByteEffect_emits b s
    exact .inl ⟨.inr (.inl ⟨b, rfl⟩), items, hitems⟩
  | encEnd => exact .inl ⟨.inl rfl, encEndEffect_emits s⟩
  | decSym c =>
    obtain ⟨items, hitems, -⟩ := decSymEffect_emits c s
    exact .inl ⟨.inr (.inr ⟨c, rfl⟩), items, hitems⟩
  | cfgWr a u p x =>
    obtain ⟨_, heq⟩ := effectOf_cfgWr hwf s
    exact .inr ⟨by simp [Emitter], by rw [heq]⟩
  | decEnd => exact .inr ⟨by simp [Emitter], decVerdict_out s⟩
  | _ => exact .inr ⟨by simp [Emitter], rfl⟩

theorem exec_emits {i : Instr} {s t : State} (h : exec i s = .next t) :
    (Emitter i ∧ ∃ items, s.Emits t items) ∨ t.out = s.out := by
  rcases exec_effect_or_discards h with ⟨hwf, -, rfl⟩ | ⟨-, e, rfl, -⟩
  · exact (effectOf_emits hwf s).imp_right (·.2)
  · exact .inr rfl

theorem effectOf_rom {i : Instr} (hwf : i.wellFormed = true) (s : State) : (effectOf i s).rom = s.rom := by
  cases i with
  | cfgWr a u p x =>
    obtain ⟨_, heq⟩ := effectOf_cfgWr hwf s
    rw [heq]
  | encByte | encEnd | decSym | decEnd => simp [effectOf]
  | _ => rfl

/-- Settles O17: a step is a reset, which keeps OUT, or a command, which appends items it counts or nothing; neither
writes the ROM. -/
theorem outIsAppendOnly : Obligations.OutIsAppendOnly := by
  unfold Obligations.OutIsAppendOnly
  refine ⟨fun s t h => ?step, fun s t i h hne => ?emitters, fun s t i items h hitems hsome => ?counted⟩
  case step =>
    refine step_keeps (P := fun t => (∃ items, t.out = s.out ++ items) ∧ t.rom = s.rom) (fun _ _ => id) (fun _ _ => id)
      (fun _ => id) (fun i u hwf _ ⟨⟨items, hout⟩, hrom⟩ => ⟨?_, (effectOf_rom hwf u).trans hrom⟩)
      ⟨⟨[], (List.append_nil _).symm⟩, rfl⟩ h
    rcases effectOf_emits hwf u with ⟨-, items', hout', -⟩ | ⟨-, hsame⟩
    · exact ⟨items ++ items', by rw [hout', hout, List.append_assoc]⟩
    · exact ⟨items, by rw [hsame, hout]⟩
  case emitters =>
    exact (exec_emits h).elim (·.1) fun hsame => absurd hsame hne
  case counted =>
    rcases exec_emits h with ⟨-, items', hout, hcnt⟩ | hsame
    · rw [hcnt, List.append_cancel_left (hitems.symm.trans hout)]
    · exact absurd (List.append_right_eq_self.1 (hitems.symm.trans hsame)) hsome

end Sys2Proof.Machine
end

section
/-! The invariants of the block: each command's effect keeps them, so every step does; and what they say of the number
of items one command emits (10_state.md R45; 41_encoder.md R124; 42_decoder.md R155; 70_reset_and_hazards.md section
3). -/

namespace Sys2Proof.Machine

/-! ### The packing of bits, in one form for both directions -/

/-- A byte keeps the low 8 bits of a value. -/
theorem ofNat_mod_byte (x : Nat) : BitVec.ofNat 8 (x % 2 ^ 8) = BitVec.ofNat 8 x :=
  BitVec.eq_of_toNat_eq (by simp only [BitVec.toNat_ofNat, Nat.mod_mod])

/-- A data symbol, all of its effect, in the form of encByteEffect_eq: k bits enter, whole bytes leave (42_decoder.md
R142, R147). -/
theorem decValueEffect_eq {v : Nat} {s : State} (hv : v < 2 ^ s.k) (hbits : s.bits.toNat < 8) : decValueEffect v s =
    { s with
      datacnt := s.datacnt + 1
      acc := BitVec.ofNat 32 ((s.acc.toNat * 2 ^ s.k + v) % 2 ^ ((s.bits.toNat + s.k) % 8))
      bits := BitVec.ofNat 32 ((s.bits.toNat + s.k) % 8)
      outcnt := s.outcnt + BitVec.ofNat 32 ((s.bits.toNat + s.k) / 8)
      out := s.out ++ (List.range ((s.bits.toNat + s.k) / 8)).map fun j =>
        BitVec.ofNat 8 ((s.acc.toNat * 2 ^ s.k + v) / 2 ^ (s.bits.toNat + s.k - (j + 1) * 8) % 2 ^ 8) } := by
  have hk : s.k ≤ 6 := by have := s.k_cases; omega
  rcases decValueEffect_cases v s hv with ⟨hfew, heq⟩ | ⟨hfull, heq⟩
  · have hmod : (s.bits.toNat + s.k) % 8 = s.bits.toNat + s.k := Nat.mod_eq_of_lt hfew
    have hdiv : (s.bits.toNat + s.k) / 8 = 0 := Nat.div_eq_of_lt hfew
    rw [heq, hmod, hdiv]
    simp
  · have hmod : (s.bits.toNat + s.k) % 8 = s.bits.toNat + s.k - 8 := by omega
    have hdiv : (s.bits.toNat + s.k) / 8 = 1 := by omega
    rw [heq, hmod, hdiv]
    simp only [List.range_one, List.map_singleton, Nat.zero_add, Nat.one_mul, ofNat_mod_byte]
    rfl

theorem toNat_ofNat_of_lt {r : Nat} (hr : r < 2 ^ 32) : (BitVec.ofNat 32 r).toNat = r := by
  rw [BitVec.toNat_ofNat, Nat.mod_eq_of_lt hr]

/-- The low r bits of a value fit into the accumulator (10_state.md R29). -/
theorem toNat_ofNat_mod_two_pow {r : Nat} (hr : r ≤ 32) (x : Nat) : (BitVec.ofNat 32 (x % 2 ^ r)).toNat = x % 2 ^ r :=
  toNat_ofNat_of_lt (Nat.lt_of_lt_of_le (Nat.mod_lt _ (Nat.two_pow_pos r)) (Nat.pow_le_pow_right (by decide) hr))

/-- An accumulator cut to r bits, r of them counted, meets item 1 of R45. -/
theorem accBelowBits_of_cut {s : State} {r : Nat} (hr : r ≤ 32) (x : Nat) (hacc : s.acc = BitVec.ofNat 32 (x % 2 ^ r))
    (hbits : s.bits = BitVec.ofNat 32 r) : s.AccBelowBits := by
  rw [State.AccBelowBits, hacc, hbits, toNat_ofNat_mod_two_pow hr, toNat_ofNat_of_lt (by omega)]
  exact Nat.mod_lt _ (Nat.two_pow_pos r)

/-! ### The invariants of R45 -/

/-- Between frames only the datapath is bound by R45, and it is clear (10_state.md R45, item 2). -/
theorem inv_of_idle {s : State} (hidle : s.mode = .idle) (hbits : s.bits = 0) (hacc : s.acc = 0) : s.Inv :=
  ⟨by simp [State.AccBelowBits, hacc], fun _ => ⟨hbits, hacc⟩, by simp [hidle], by simp [hidle], by simp [hidle]⟩

theorem inv_closeFrame (s : State) : s.closeFrame.Inv := inv_of_idle rfl rfl rfl

theorem inv_openFrame (s : State) {m : Mode} (hopen : m ≠ .idle) (hok : m ≠ .halt) : (s.openFrame m).Inv :=
  ⟨Nat.two_pow_pos _, fun h => absurd h hopen, fun _ => ⟨s.k_pos, rfl, rfl⟩, fun _ => by simp,
    fun h => absurd h hok⟩

theorem inv_encByteEffect {s : State} (b : Byte) (henc : s.mode = .enc) (hinv : s.Inv) : (encByteEffect b s).Inv := by
  obtain ⟨-, -, hframe, -, -⟩ := hinv
  obtain ⟨-, hdatacnt, hpadcnt⟩ := hframe henc
  have hk : s.k ≤ 6 := by have := s.k_cases; omega
  have hleft : (s.bits.toNat + 8) % s.k < s.k := Nat.mod_lt _ s.k_pos
  rw [encByteEffect_eq]
  exact ⟨accBelowBits_of_cut (by omega) _ rfl rfl, by simp [henc],
    fun _ => ⟨(toNat_ofNat_of_lt (by omega)).trans_lt hleft, hdatacnt, hpadcnt⟩, by simp [henc], by simp [henc]⟩

/-- The residue of the data symbols' bits, counted on although DATACNT wraps (10_state.md R45, item 4). -/
theorem residue_succ (s : State) {b d : Nat} (h : b = d * s.k % 8) :
    (b + s.k) % 8 = (d + 1) % 2 ^ 32 * s.k % 8 := by
  rcases s.k_cases with hk | hk | hk | hk <;> rw [hk] at h ⊢ <;> omega

theorem inv_decValueEffect {s : State} {v : Nat} (hv : v < 2 ^ s.k) (hdec : s.mode = .dec) (hinv : s.Inv) :
    (decValueEffect v s).Inv := by
  obtain ⟨-, -, -, hframe, -⟩ := hinv
  obtain ⟨hbits, hresidue⟩ := hframe (.inl hdec)
  have hleft : (s.bits.toNat + s.k) % 8 < 8 := Nat.mod_lt _ (by decide)
  have hbits' := toNat_ofNat_of_lt (Nat.lt_trans hleft (by decide))
  rw [decValueEffect_eq hv hbits]
  refine ⟨accBelowBits_of_cut (Nat.le_trans hleft.le (by decide)) _ rfl rfl, by simp [hdec], by simp [hdec],
    fun _ => ⟨hbits'.trans_lt hleft, hbits'.trans ?_⟩, by simp [hdec]⟩
  rw [residue_succ s hresidue]
  exact congrArg (· * s.k % 8) (BitVec.toNat_add s.datacnt 1).symm

theorem inv_decSymEffect {s : State} (c : Byte) (hdec : s.mode = .dec) (hinv : s.Inv) : (decSymEffect c s).Inv := by
  rcases decSymEffect_cases c s with ⟨-, heq⟩ | ⟨-, -, heq⟩ | ⟨-, -, heq⟩ | ⟨v, -, -, hv, -, heq⟩ <;> rw [heq]
  · exact hinv
  · obtain ⟨hacc, -, -, hframe, -⟩ := hinv
    exact ⟨hacc, by simp, by simp, fun _ => hframe (.inl hdec), fun _ => rfl⟩
  · obtain ⟨hacc, hidle, -, hframe, hhalt⟩ := hinv
    exact ⟨hacc, hidle, by simp [hdec], hframe, hhalt⟩
  · exact inv_decValueEffect (s := { s with incnt := s.incnt + 1 }) hv hdec hinv

theorem inv_effectOf {i : Instr} {s : State} (hwf : i.wellFormed = true) (hmode : s.mode ∈ okModes i)
    (hinv : s.Inv) : (effectOf i s).Inv := by
  cases i with
  | cfgWr a u p x =>
    obtain ⟨_, heq⟩ := effectOf_cfgWr hwf s
    obtain ⟨-, hempty, -⟩ := hinv
    have hidle : s.mode = .idle := by simpa using hmode
    obtain ⟨hbits, hacc⟩ := hempty hidle
    rw [heq]
    exact inv_of_idle hidle hbits hacc
  | encBegin | decBegin => exact inv_openFrame s (by decide) (by decide)
  | encByte b => exact inv_encByteEffect b (by simpa using hmode) hinv
  | encEnd =>
    obtain ⟨_, heq, -⟩ := encEndEffect_eq s
    rw [effectOf, heq]
    exact inv_of_idle rfl rfl rfl
  | decSym c => exact inv_decSymEffect c (by simpa using hmode) hinv
  | decEnd | abort => exact inv_closeFrame _
  | _ => exact hinv

theorem inv_resetEvent (s : State) : s.resetEvent.Inv := inv_of_idle rfl rfl rfl

/-- Settles O23: R45 speaks of no presented event and of no command error, and each command's effect in its ok modes
keeps it. -/
theorem stepKeepsTheInvariants : Obligations.StepKeepsTheInvariants := by
  unfold Obligations.StepKeepsTheInvariants
  intro s t hinv h
  exact step_keeps (fun _ _ => id) (fun _ _ => id) (fun u _ => inv_resetEvent u) (fun _ _ => inv_effectOf) hinv h

/-! ### The account of bits -/

theorem tally_of_idle {s : State} (hidle : s.mode = .idle) : s.Tally := by simp [State.Tally, hidle]

/-- One more entry of w bits on the one side, q groups of m bits and the change of the rest on the other
(41_encoder.md R124, 42_decoder.md R155). -/
theorem account_succ {w m b q r : Nat} {x y : Word} (h : w * x.toNat % 2 ^ 32 = (m * y.toNat + b) % 2 ^ 32)
    (hstep : b + w = m * q + r) :
    w * (x + 1).toNat % 2 ^ 32 = (m * (y + BitVec.ofNat 32 q).toNat + (BitVec.ofNat 32 r).toNat) % 2 ^ 32 := by
  have hx : (x + 1).toNat = (x.toNat + 1) % 2 ^ 32 := BitVec.toNat_add x 1
  have hy : (y + BitVec.ofNat 32 q).toNat = (y.toNat + q) % 2 ^ 32 := by
    rw [BitVec.toNat_add, BitVec.toNat_ofNat, Nat.add_mod_mod]
  calc w * (x + 1).toNat % 2 ^ 32
    _ = (w * x.toNat + w) % 2 ^ 32 := by rw [hx, Nat.mul_mod_mod, Nat.mul_succ]
    _ = (m * y.toNat + b + w) % 2 ^ 32 := Nat.ModEq.add_right w h
    _ = (m * (y.toNat + q) + r) % 2 ^ 32 := by rw [Nat.add_assoc, hstep, Nat.mul_add, Nat.add_assoc]
    _ = (m * (y + BitVec.ofNat 32 q).toNat + (BitVec.ofNat 32 r).toNat) % 2 ^ 32 := by
      rw [hy, BitVec.toNat_ofNat, Nat.add_mod (m * ((y.toNat + q) % 2 ^ 32)), Nat.mul_mod_mod, Nat.mod_mod,
        ← Nat.add_mod]

theorem tally_encByteEffect {s : State} (b : Byte) (henc : s.mode = .enc) (htally : s.Tally) :
    (encByteEffect b s).Tally := by
  obtain ⟨hcount, -⟩ := htally
  rw [encByteEffect_eq]
  exact ⟨fun _ => account_succ (hcount henc) (Nat.div_add_mod (s.bits.toNat + 8) s.k).symm, by simp [henc]⟩

theorem tally_decValueEffect {s : State} {v : Nat} (hv : v < 2 ^ s.k) (hdec : s.mode = .dec) (hinv : s.Inv)
    (htally : s.Tally) : (decValueEffect v s).Tally := by
  obtain ⟨-, -, -, hframe, -⟩ := hinv
  obtain ⟨hbits, -⟩ := hframe (.inl hdec)
  obtain ⟨-, hcount⟩ := htally
  rw [decValueEffect_eq hv hbits]
  exact ⟨by simp [hdec], fun _ => account_succ (hcount (.inl hdec)) (Nat.div_add_mod (s.bits.toNat + s.k) 8).symm⟩

theorem tally_decSymEffect {s : State} (c : Byte) (hdec : s.mode = .dec) (hinv : s.Inv) (htally : s.Tally) :
    (decSymEffect c s).Tally := by
  rcases decSymEffect_cases c s with ⟨-, heq⟩ | ⟨-, -, heq⟩ | ⟨-, -, heq⟩ | ⟨v, -, -, hv, -, heq⟩ <;> rw [heq]
  · exact ⟨by simp [hdec], htally.2⟩
  · exact ⟨by simp, fun _ => htally.2 (.inl hdec)⟩
  · exact ⟨by simp [hdec], htally.2⟩
  · exact tally_decValueEffect (s := { s with incnt := s.incnt + 1 }) hv hdec hinv ⟨by simp [hdec], htally.2⟩

theorem tally_effectOf {i : Instr} {s : State} (hwf : i.wellFormed = true) (hmode : s.mode ∈ okModes i)
    (hinv : s.Inv) (htally : s.Tally) : (effectOf i s).Tally := by
  cases i with
  | cfgWr a u p x =>
    obtain ⟨_, heq⟩ := effectOf_cfgWr hwf s
    rw [heq]
    exact tally_of_idle (by simpa using hmode)
  | encBegin | decBegin => exact ⟨fun _ => rfl, fun _ => rfl⟩
  | encByte b => exact tally_encByteEffect b (by simpa using hmode) htally
  | encEnd => exact tally_of_idle (encEndEffect_mode s)
  | decSym c => exact tally_decSymEffect c (by simpa using hmode) hinv htally
  | decEnd | abort => exact tally_of_idle rfl
  | _ => exact htally

/-- Settles O24: with R45, each command's effect in its ok modes keeps the account. -/
theorem stepKeepsTheTally : Obligations.StepKeepsTheTally := by
  unfold Obligations.StepKeepsTheTally
  intro s t hinv htally h
  have hboth := step_keeps (P := fun s => s.Inv ∧ s.Tally) (fun _ _ => id) (fun _ _ => id)
    (fun u _ => ⟨inv_resetEvent u, tally_of_idle rfl⟩)
    (fun _ _ hwf hmode hs => ⟨inv_effectOf hwf hmode hs.1, tally_effectOf hwf hmode hs.1 hs.2⟩) ⟨hinv, htally⟩ h
  exact hboth.2

/-! ### No verdict while a frame is open -/

theorem noVerdictYet_of_idle {s : State} (hidle : s.mode = .idle) : s.NoVerdictYet := by
  simp [State.NoVerdictYet, hidle]

theorem noVerdictYet_effectOf {i : Instr} {s : State} (hwf : i.wellFormed = true) (hmode : s.mode ∈ okModes i)
    (hs : s.NoVerdictYet) : (effectOf i s).NoVerdictYet := by
  cases i with
  | cfgWr a u p x =>
    obtain ⟨_, heq⟩ := effectOf_cfgWr hwf s
    rw [heq]
    exact hs
  | encBegin | decBegin => exact ⟨fun _ => rfl, fun _ => rfl⟩
  | encByte b => simpa [effectOf, State.NoVerdictYet] using hs
  | encEnd => exact noVerdictYet_of_idle (encEndEffect_mode s)
  | decSym c =>
    by_cases hrefuses : s.Refuses c
    · rw [effectOf, decSymEffect_of_refuses hrefuses]
      have hdec : s.mode = .dec := by simpa using hmode
      exact ⟨fun _ => hs.1 (by simp [hdec]), by simp⟩
    · obtain ⟨_, _, _, _, _, _, heq⟩ := decSymEffect_of_not_refuses hrefuses
      rw [effectOf, heq]
      exact hs
  | decEnd | abort => exact noVerdictYet_of_idle rfl
  | _ => exact hs

/-- Settles O25: the END commands, which give a verdict, close the frame, and INVALID_CHAR enters HALT. -/
theorem stepKeepsNoVerdictYet : Obligations.StepKeepsNoVerdictYet := by
  unfold Obligations.StepKeepsNoVerdictYet
  intro s t hs h
  exact step_keeps (fun _ _ => id) (fun _ _ => id) (fun _ _ => noVerdictYet_of_idle rfl)
    (fun _ _ => noVerdictYet_effectOf) hs h

/-- Settles O22: the reset state is idle with a clear datapath. -/
theorem resetStateMeetsTheInvariants : Obligations.ResetStateMeetsTheInvariants :=
  ⟨inv_of_idle rfl rfl rfl, tally_of_idle rfl, noVerdictYet_of_idle rfl⟩

/-! ### How many items one command emits -/

theorem State.length_finalSymbol (s : State) : s.finalSymbol.length = if 0 < s.bits.toNat then 1 else 0 := by
  rw [State.finalSymbol]
  split <;> rfl

/-- ENC_END's items, counted: the final symbol, then no pad, or at width 5 or 6 the pads due (41_encoder.md R123). -/
theorem encEndEffect_emits_count (s : State) : ∃ items, s.Emits (encEndEffect s) items ∧
    (items.length = s.finalSymbol.length ∨ (s.k = 5 ∨ s.k = 6) ∧
      items.length = s.finalSymbol.length + padsDue s.k (s.outcnt.toNat + s.finalSymbol.length)) := by
  obtain ⟨pads, heq, hpads⟩ := encEndEffect_eq s
  refine ⟨s.finalSymbol ++ pads, by rw [heq]; exact ⟨rfl, rfl⟩, ?_⟩
  have hcases : pads = [] ∨ (s.k = 5 ∨ s.k = 6) ∧
      pads.length = padsDue s.k (s.outcnt.toNat + s.finalSymbol.length) := by
    rw [hpads]
    split
    · exact .inl rfl
    · by_cases hon : (s.cfg.padEn && padWidth s.k) = true
      · rw [if_pos hon, List.length_replicate, padsDue_outcnt_add, ← padWidth_eq_true_iff]
        exact .inr ⟨(Bool.and_eq_true_iff.1 hon).2, rfl⟩
      · exact .inl (if_neg hon)
  rcases hcases with rfl | ⟨hk, hlen⟩
  · exact .inl (by rw [List.append_nil])
  · exact .inr ⟨hk, by rw [List.length_append, hlen]⟩

/-- In an encode frame the account leaves no bits over at a whole block, so ENC_END never emits a whole block
(70_reset_and_hazards.md R235). -/
theorem encEnd_count_le {s : State} (henc : s.mode = .enc) (hinv : s.Inv) (htally : s.Tally) :
    (s.k = 1 ∨ s.k = 4 → s.finalSymbol.length = 0) ∧
    s.finalSymbol.length + padsDue s.k (s.outcnt.toNat + s.finalSymbol.length) < symbolsPerBlock s.k := by
  obtain ⟨-, -, hframe, -⟩ := hinv
  obtain ⟨hbits, -⟩ := hframe henc
  obtain ⟨hcount, -⟩ := htally
  have haccount := hcount henc
  rw [State.length_finalSymbol, padsDue]
  rcases s.k_cases with hk | hk | hk | hk <;> rw [hk] at hbits haccount ⊢ <;>
    simp only [symbolsPerBlock_1, symbolsPerBlock_4, symbolsPerBlock_5, symbolsPerBlock_6] <;> split <;> omega

theorem encEnd_emits_bounds {s : State} (henc : s.mode = .enc) (hinv : s.Inv) (htally : s.Tally) :
    ∃ items, s.Emits (encEndEffect s) items ∧ items.length ≤ 7 ∧ (s.k = 6 → items.length ≤ 3) ∧
      (s.k = 1 ∨ s.k = 4 → items = []) := by
  obtain ⟨items, hitems, hlen⟩ := encEndEffect_emits_count s
  obtain ⟨hnone, hblock⟩ := encEnd_count_le henc hinv htally
  have hsymbols : symbolsPerBlock s.k ≤ 8 := Nat.div_le_self 8 _
  refine ⟨items, hitems, by omega, fun hk => ?_, fun hk => List.eq_nil_of_length_eq_zero ?_⟩
  · have hfour : symbolsPerBlock s.k = 4 := by rw [hk, symbolsPerBlock_6]
    omega
  · have := hnone hk
    omega

/-- A byte makes 8 symbols of width 1, 2 of width 4, 1 or 2 of widths 5 and 6 (41_encoder.md R122). -/
theorem encByte_count {s : State} (hbits : s.bits.toNat < s.k) :
    (s.k = 1 → (s.bits.toNat + 8) / s.k = 8) ∧ (s.k = 4 → (s.bits.toNat + 8) / s.k = 2) ∧
    (s.k = 5 ∨ s.k = 6 → (s.bits.toNat + 8) / s.k = 1 ∨ (s.bits.toNat + 8) / s.k = 2) := by
  rcases s.k_cases with hk | hk | hk | hk <;> rw [hk] at hbits ⊢ <;> omega

/-- The three commands that append to OUT, each in its one ok mode; any other command, and one that is discarded,
appends nothing (10_state.md R42; 60_exceptions.md R201). -/
theorem exec_emitter_cases {i : Instr} {s t : State} (h : exec i s = .next t) :
    (i = .encEnd ∧ s.mode = .enc ∧ t = encEndEffect s) ∨
    (∃ b, i = .encByte b ∧ s.mode = .enc ∧ t = encByteEffect b s) ∨
    (∃ c, i = .decSym c ∧ t = decSymEffect c s) ∨
    (t.out = s.out ∧ ∀ b, i = .encByte b → s.mode ≠ .enc) := by
  rcases exec_effect_or_discards h with ⟨hwf, hmode, rfl⟩ | ⟨hnotOk, e, rfl, -⟩
  · rcases effectOf_emits hwf s with ⟨rfl | ⟨b, rfl⟩ | ⟨c, rfl⟩, -⟩ | ⟨hother, hout⟩
    · exact .inl ⟨rfl, by simpa using hmode, rfl⟩
    · exact .inr (.inl ⟨b, rfl, by simpa using hmode, rfl⟩)
    · exact .inr (.inr (.inl ⟨c, rfl, rfl⟩))
    · exact .inr (.inr (.inr ⟨hout, fun b hi => absurd (.inr (.inl ⟨b, hi⟩)) hother⟩))
  · refine .inr (.inr (.inr ⟨rfl, ?_⟩))
    rintro b rfl henc
    exact hnotOk ⟨rfl, by simp [henc]⟩

/-- Settles O18: the counts of ENC_BYTE, ENC_END and DEC_SYM follow from BITS below k and from the account of bits; no
other command appends. -/
theorem oneCommandEmitsAtMostEight : Obligations.OneCommandEmitsAtMostEight := by
  unfold Obligations.OneCommandEmitsAtMostEight
  intro s t i hinv htally h
  rcases exec_emitter_cases h with ⟨rfl, henc, rfl⟩ | ⟨b, rfl, henc, rfl⟩ | ⟨c, rfl, rfl⟩ | ⟨hout, hbyte⟩
  · obtain ⟨items, ⟨hout, -⟩, hlen, hsix, hnone⟩ := encEnd_emits_bounds henc hinv htally
    exact ⟨items, hout, by omega, fun _ => ⟨hlen, hsix, hnone⟩, by simp, by simp⟩
  · obtain ⟨items, ⟨hout, -⟩, hlen⟩ := encByteEffect_emits b s
    obtain ⟨-, -, hframe, -⟩ := hinv
    obtain ⟨hbase2, hbase16, hwide⟩ := encByte_count (hframe henc).1
    rw [← hlen] at hbase2 hbase16 hwide
    have hk := s.k_cases
    exact ⟨items, hout, by omega, by simp, fun _ _ _ => ⟨hbase2, hbase16, hwide⟩, by simp⟩
  · obtain ⟨items, ⟨hout, -⟩, hlen⟩ := decSymEffect_emits c s
    exact ⟨items, hout, by omega, by simp, by simp, fun _ _ => hlen⟩
  · exact ⟨[], by rw [hout, List.append_nil], by simp, by simp, fun b hi henc => absurd henc (hbyte b hi), by simp⟩

end Sys2Proof.Machine
end

section
/-! Bit strings: a bit string is the number it spells, cut into groups from the most significant bit, with fewer bits
than a group left over; cutting may stop anywhere and go on with the bits left over (20_memory.md R54). -/

namespace Sys2Proof.Machine

/-! ### The value of a bit string -/

theorem valueOf_concat (bits : List Bool) (b : Bool) : valueOf (bits ++ [b]) = 2 * valueOf bits + b.toNat := by
  simp [valueOf]

theorem valueOf_append (xs ys : List Bool) : valueOf (xs ++ ys) = valueOf xs * 2 ^ ys.length + valueOf ys := by
  induction ys using List.reverseRecOn with
  | nil => simp [valueOf]
  | append_singleton ys b ih =>
    rw [← List.append_assoc, valueOf_concat, valueOf_concat, ih, List.length_append, List.length_singleton,
      Nat.pow_succ]
    ring

theorem valueOf_lt (bits : List Bool) : valueOf bits < 2 ^ bits.length := by
  induction bits using List.reverseRecOn with
  | nil => exact Nat.one_pos
  | append_singleton bits b ih =>
    have := b.toNat_le
    rw [valueOf_concat, List.length_append, List.length_singleton, Nat.pow_succ]
    omega

theorem valueOf_replicate_false (z : Nat) : valueOf (List.replicate z false) = 0 := by
  induction z with
  | zero => rfl
  | succ z ih => rw [List.replicate_succ', valueOf_concat, ih]; rfl

theorem valueOf_eq_zero_iff (bits : List Bool) : valueOf bits = 0 ↔ ∀ b ∈ bits, b = false := by
  induction bits using List.reverseRecOn with
  | nil => simp [valueOf]
  | append_singleton bits b ih =>
    rw [valueOf_concat, List.forall_mem_append, ← ih, List.forall_mem_singleton]
    cases b <;> simp

@[simp] theorem length_bitsOf (n v : Nat) : (bitsOf n v).length = n := by simp [bitsOf]

theorem bitsOf_succ (n v : Nat) : bitsOf (n + 1) v = bitsOf n (v / 2) ++ [v.testBit 0] := by
  rw [bitsOf, List.range_succ, List.map_append, List.map_singleton]
  refine congrArg₂ _ (List.map_congr_left fun i hi => ?_) (by simp)
  rw [← Nat.testBit_succ]
  congr 1
  have := List.mem_range.1 hi
  omega

theorem valueOf_bitsOf (n v : Nat) : valueOf (bitsOf n v) = v % 2 ^ n := by
  induction n generalizing v with
  | zero => simp [bitsOf, valueOf, Nat.mod_one]
  | succ n ih =>
    have hlow : (v.testBit 0).toNat = v % 2 := by
      rw [Nat.testBit_zero]
      rcases Nat.mod_two_eq_zero_or_one v with h | h <;> simp [h]
    rw [bitsOf_succ, valueOf_concat, ih, hlow, Nat.pow_succ, Nat.mul_comm (2 ^ n), Nat.mod_mul]
    omega

theorem bitsOf_valueOf (bits : List Bool) : bitsOf bits.length (valueOf bits) = bits := by
  induction bits using List.reverseRecOn with
  | nil => rfl
  | append_singleton bits b ih =>
    have hhalf : (2 * valueOf bits + b.toNat) / 2 = valueOf bits := by have := b.toNat_le; omega
    have hlow : (2 * valueOf bits + b.toNat).testBit 0 = b := by cases b <;> simp
    rw [List.length_append, List.length_singleton, bitsOf_succ, valueOf_concat, hhalf, hlow, ih]

/-! ### One group -/

theorem bitGroup_lt (n : Nat) (bits : List Bool) (j : Nat) : bitGroup n bits j < 2 ^ n := by
  have h := valueOf_lt ((List.range n).map fun i => bits.getD (n * j + i) false)
  rwa [List.length_map, List.length_range] at h

/-- A group reads no bit past its end. -/
theorem bitGroup_append_left {n j : Nat} {bits : List Bool} (h : n * (j + 1) ≤ bits.length) (more : List Bool) :
    bitGroup n (bits ++ more) j = bitGroup n bits j := by
  refine congrArg valueOf (List.map_congr_left fun i hi => List.getD_append _ _ _ _ ?_)
  have := List.mem_range.1 hi
  rw [Nat.mul_succ] at h
  omega

/-- The groups past q whole ones are those of the rest. -/
theorem bitGroup_append_right {n q : Nat} {bits : List Bool} (h : bits.length = n * q) (more : List Bool) (j : Nat) :
    bitGroup n (bits ++ more) (q + j) = bitGroup n more j := by
  refine congrArg valueOf (List.map_congr_left fun i _ => ?_)
  have hpos : n * (q + j) + i = bits.length + (n * j + i) := by rw [h, Nat.mul_add, Nat.add_assoc]
  rw [List.getD_append_right _ _ _ _ (by omega), hpos, Nat.add_sub_cancel_left]

/-- Zero bits stand below the end of a bit string (20_memory.md R54). -/
theorem bitGroup_append_zeros (n : Nat) (bits : List Bool) (z j : Nat) :
    bitGroup n (bits ++ List.replicate z false) j = bitGroup n bits j := by
  refine congrArg valueOf (List.map_congr_left fun i _ => ?_)
  simp only [List.getD_eq_getElem?_getD, List.getElem?_append, List.getElem?_replicate]
  split
  · rfl
  · rw [List.getElem?_eq_none (by omega)]
    split <;> rfl

theorem bitGroup_of_length {n : Nat} {bits : List Bool} (h : bits.length = n) : bitGroup n bits 0 = valueOf bits := by
  refine congrArg valueOf (List.ext_getElem (by simp [h]) fun i hi hi' => ?_)
  rw [List.getElem_map, List.getElem_range, Nat.mul_zero, Nat.zero_add, List.getD_eq_getElem _ _ hi']

/-- A bit string of m bits or more, cut after m bits. -/
theorem exists_append_of_le_length {m : Nat} {bits : List Bool} (h : m ≤ bits.length) :
    ∃ first rest, bits = first ++ rest ∧ first.length = m :=
  ⟨_, _, (List.take_append_drop m bits).symm, List.length_take_of_le h⟩

/-- A group is read off the number by a shift and a mask (41_encoder.md R122). -/
theorem bitGroup_eq_div {n j : Nat} {bits : List Bool} (h : (j + 1) * n ≤ bits.length) :
    bitGroup n bits j = valueOf bits / 2 ^ (bits.length - (j + 1) * n) % 2 ^ n := by
  obtain ⟨upTo, below, rfl, hupTo⟩ := exists_append_of_le_length h
  obtain ⟨above, group, rfl, habove⟩ := exists_append_of_le_length (m := n * j) (bits := upTo) (by
    rw [hupTo, Nat.succ_mul, Nat.mul_comm]; exact Nat.le_add_right _ _)
  have hgroup : group.length = n := by
    rw [List.length_append, habove, Nat.succ_mul, Nat.mul_comm] at hupTo
    exact Nat.add_left_cancel hupTo
  have hread : bitGroup n (above ++ group ++ below) j = valueOf group := by
    rw [List.append_assoc, ← Nat.add_zero j, bitGroup_append_right habove, bitGroup_append_left (by simp [hgroup]),
      bitGroup_of_length hgroup]
  have hbelow : (above ++ group ++ below).length - (j + 1) * n = below.length := by
    rw [List.length_append, hupTo, Nat.add_sub_cancel_left]
  have hlt := valueOf_lt group
  rw [hgroup] at hlt
  rw [hread, hbelow, valueOf_append _ below, valueOf_append above, hgroup, Nat.mul_comm _ (2 ^ below.length),
    Nat.mul_add_div (Nat.two_pow_pos _), Nat.div_eq_of_lt (valueOf_lt below), Nat.add_zero, Nat.mul_add_mod',
    Nat.mod_eq_of_lt hlt]

/-! ### The whole groups and the bits left over -/

/-- The whole n-bit groups of a bit string, the most significant first (20_memory.md R54). -/
def wholeGroups (n : Nat) (bits : List Bool) : List Nat := (List.range (bits.length / n)).map (bitGroup n bits)

/-- The bits below the whole n-bit groups. -/
def leftover (n : Nat) (bits : List Bool) : List Bool := bits.drop (n * (bits.length / n))

@[simp] theorem length_wholeGroups (n : Nat) (bits : List Bool) : (wholeGroups n bits).length = bits.length / n := by
  rw [wholeGroups, List.length_map, List.length_range]

@[simp] theorem length_leftover (n : Nat) (bits : List Bool) : (leftover n bits).length = bits.length % n := by
  rw [leftover, List.length_drop, Nat.mod_eq_sub]

theorem wholeGroups_of_length_lt {n : Nat} {bits : List Bool} (h : bits.length < n) : wholeGroups n bits = [] := by
  rw [wholeGroups, Nat.div_eq_of_lt h, List.range_zero, List.map_nil]

theorem wholeGroups_of_length_eq {n : Nat} (hn : 0 < n) {bits : List Bool} (h : bits.length = n) :
    wholeGroups n bits = [valueOf bits] := by
  rw [wholeGroups, h, Nat.div_self hn, List.range_one, List.map_singleton, bitGroup_of_length h]

/-- The packing loop's form of the groups: shifts and masks of the number (41_encoder.md R122). -/
theorem wholeGroups_eq_div (n : Nat) (bits : List Bool) : wholeGroups n bits =
    (List.range (bits.length / n)).map fun j => valueOf bits / 2 ^ (bits.length - (j + 1) * n) % 2 ^ n := by
  refine List.map_congr_left fun j hj => bitGroup_eq_div ?_
  exact (Nat.le_div_iff_mul_le (Nat.pos_of_ne_zero fun hn => by simp [hn] at hj)).1 (List.mem_range.1 hj)

/-- Whole groups, cut off, do not change how the rest is cut. -/
theorem wholeGroups_append_of_dvd {n q : Nat} (hn : 0 < n) {bits : List Bool} (h : bits.length = n * q)
    (more : List Bool) : wholeGroups n (bits ++ more) = wholeGroups n bits ++ wholeGroups n more := by
  have hcount : (bits ++ more).length / n = q + more.length / n := by
    rw [List.length_append, h, Nat.mul_add_div hn]
  rw [wholeGroups, hcount, List.range_add, List.map_append, List.map_map, wholeGroups, wholeGroups, h,
    Nat.mul_div_cancel_left _ hn]
  refine congrArg₂ _ (List.map_congr_left fun j hj => bitGroup_append_left ?_ more)
    (List.map_congr_left fun j _ => bitGroup_append_right h more j)
  rw [h]
  exact Nat.mul_le_mul_left n (List.mem_range.1 hj)

theorem leftover_append_of_dvd {n q : Nat} (hn : 0 < n) {bits : List Bool} (h : bits.length = n * q)
    (more : List Bool) : leftover n (bits ++ more) = leftover n more := by
  rw [leftover, List.length_append, h, Nat.mul_add_div hn, Nat.mul_add, ← h, List.drop_length_add_append, leftover]

/-- A bit string is its whole groups' bits, then the bits left over. -/
theorem exists_append_leftover (n : Nat) (bits : List Bool) :
    ∃ whole, bits = whole ++ leftover n bits ∧ whole.length = n * (bits.length / n) :=
  ⟨_, (List.take_append_drop _ bits).symm, List.length_take_of_le (Nat.mul_div_le _ n)⟩

/-- Cutting goes on with the bits left over: the groups already cut stay. -/
theorem wholeGroups_append {n : Nat} (hn : 0 < n) (bits more : List Bool) :
    wholeGroups n (bits ++ more) = wholeGroups n bits ++ wholeGroups n (leftover n bits ++ more) := by
  obtain ⟨whole, hbits, hwhole⟩ := exists_append_leftover n bits
  have hrest : wholeGroups n (leftover n bits) = [] := wholeGroups_of_length_lt (by simp [Nat.mod_lt _ hn])
  have hfirst : wholeGroups n bits = wholeGroups n whole := by
    conv_lhs => rw [hbits, wholeGroups_append_of_dvd hn hwhole, hrest, List.append_nil]
  conv_lhs => rw [hbits, List.append_assoc, wholeGroups_append_of_dvd hn hwhole]
  rw [hfirst]

theorem leftover_append {n : Nat} (hn : 0 < n) (bits more : List Bool) :
    leftover n (bits ++ more) = leftover n (leftover n bits ++ more) := by
  obtain ⟨whole, hbits, hwhole⟩ := exists_append_leftover n bits
  conv_lhs => rw [hbits, List.append_assoc, leftover_append_of_dvd hn hwhole]

theorem valueOf_leftover (n : Nat) (bits : List Bool) :
    valueOf (leftover n bits) = valueOf bits % 2 ^ (bits.length % n) := by
  obtain ⟨whole, hbits, -⟩ := exists_append_leftover n bits
  have hlt := valueOf_lt (leftover n bits)
  conv_rhs => rw [hbits, valueOf_append, ← hbits]
  rw [length_leftover] at hlt ⊢
  rw [Nat.mul_add_mod', Nat.mod_eq_of_lt hlt]

/-! ### Cutting and joining are inverse -/

theorem length_flatMap_bitsOf (n : Nat) (vs : List Nat) : (vs.flatMap (bitsOf n)).length = vs.length * n := by
  induction vs with
  | nil => simp
  | cons v vs ih => rw [List.flatMap_cons, List.length_append, ih, length_bitsOf, List.length_cons, Nat.succ_mul,
      Nat.add_comm]

/-- Cutting what was joined gives the values back. -/
theorem wholeGroups_flatMap_bitsOf {n : Nat} (hn : 0 < n) {vs : List Nat} (hvs : ∀ v ∈ vs, v < 2 ^ n) :
    wholeGroups n (vs.flatMap (bitsOf n)) = vs := by
  induction vs with
  | nil => exact wholeGroups_of_length_lt hn
  | cons v vs ih =>
    obtain ⟨hv, hrest⟩ := List.forall_mem_cons.1 hvs
    have hlen : (bitsOf n v).length = n := length_bitsOf n v
    rw [List.flatMap_cons, wholeGroups_append_of_dvd hn (hlen.trans (Nat.mul_one n).symm),
      wholeGroups_of_length_eq hn hlen, valueOf_bitsOf, Nat.mod_eq_of_lt hv, ih hrest, List.singleton_append]

/-- Joining what was cut gives the bit string back, when no bits are left over. -/
theorem flatMap_bitsOf_wholeGroups {n q : Nat} (hn : 0 < n) {bits : List Bool} (h : bits.length = n * q) :
    (wholeGroups n bits).flatMap (bitsOf n) = bits := by
  induction q generalizing bits with
  | zero =>
    obtain rfl := List.eq_nil_of_length_eq_zero h
    rw [wholeGroups_of_length_lt hn, List.flatMap_nil]
  | succ q ih =>
    obtain ⟨group, rest, rfl, hgroup⟩ :=
      exists_append_of_le_length (m := n) (bits := bits) (by rw [h]; exact Nat.le_mul_of_pos_right n q.succ_pos)
    have hrest : rest.length = n * q := by
      rw [List.length_append, hgroup, Nat.mul_succ, Nat.add_comm] at h
      exact Nat.add_right_cancel h
    have hone : bitsOf n (valueOf group) = group := by rw [← hgroup, bitsOf_valueOf]
    rw [wholeGroups_append_of_dvd hn (hgroup.trans (Nat.mul_one n).symm), wholeGroups_of_length_eq hn hgroup,
      List.singleton_append, List.flatMap_cons, hone, ih hrest]

end Sys2Proof.Machine
end

section
/-! The encode frame: after each byte the block holds the bits left over of the bytes so far and has emitted the
symbols of their whole groups; ENC_END fills the last group with zeros and pads (20_memory.md R54; 41_encoder.md R120
to R125). -/

namespace Sys2Proof.Machine

/-- The bit string of a byte sequence (20_memory.md R54). -/
def byteBits (bytes : List Byte) : List Bool := bytes.flatMap fun b => bitsOf 8 b.toNat

@[simp] theorem byteBits_nil : byteBits [] = [] := rfl

theorem byteBits_concat (bytes : List Byte) (b : Byte) :
    byteBits (bytes ++ [b]) = byteBits bytes ++ bitsOf 8 b.toNat := by
  simp [byteBits]

theorem byteBits_eq (bytes : List Byte) : byteBits bytes = (bytes.map BitVec.toNat).flatMap (bitsOf 8) := by
  rw [byteBits, List.flatMap_map]

theorem length_byteBits (bytes : List Byte) : (byteBits bytes).length = 8 * bytes.length := by
  rw [byteBits_eq, length_flatMap_bitsOf, List.length_map, Nat.mul_comm]

theorem valueOf_bitsOf_byte (b : Byte) : valueOf (bitsOf 8 b.toNat) = b.toNat := by
  rw [valueOf_bitsOf, Nat.mod_eq_of_lt b.isLt]

/-- Fewer bits than the accumulator is wide, held as its value (10_state.md R29). -/
theorem toNat_ofNat_valueOf {bits : List Bool} (h : bits.length ≤ 32) :
    (BitVec.ofNat 32 (valueOf bits)).toNat = valueOf bits :=
  toNat_ofNat_of_lt ((valueOf_lt bits).trans_le (Nat.pow_le_pow_right (by decide) h))

/-! ### The frame's states -/

/-- The encode frame of an idle state s after the given bytes (41_encoder.md R120, R122). -/
def State.afterBytes (s : State) (bytes : List Byte) : State :=
  { s.openFrame .enc with
    acc := BitVec.ofNat 32 (valueOf (leftover s.k (byteBits bytes)))
    bits := BitVec.ofNat 32 (leftover s.k (byteBits bytes)).length
    incnt := BitVec.ofNat 32 bytes.length
    outcnt := BitVec.ofNat 32 (wholeGroups s.k (byteBits bytes)).length
    out := s.out ++ (wholeGroups s.k (byteBits bytes)).map s.symOut }

theorem State.length_leftover_lt (s : State) (bits : List Bool) : (leftover s.k bits).length < s.k := by
  rw [length_leftover]
  exact Nat.mod_lt _ s.k_pos

theorem State.length_leftover_le (s : State) (bits : List Bool) : (leftover s.k bits).length ≤ 6 := by
  have := s.length_leftover_lt bits
  have := s.k_cases
  omega

theorem State.afterBytes_acc_toNat (s : State) (bytes : List Byte) :
    (s.afterBytes bytes).acc.toNat = valueOf (leftover s.k (byteBits bytes)) :=
  toNat_ofNat_valueOf ((s.length_leftover_le _).trans (by decide))

theorem State.afterBytes_bits_toNat (s : State) (bytes : List Byte) :
    (s.afterBytes bytes).bits.toNat = (leftover s.k (byteBits bytes)).length :=
  toNat_ofNat_of_lt ((s.length_leftover_le _).trans_lt (by decide))

theorem State.afterBytes_nil (s : State) : s.afterBytes [] = s.openFrame .enc := by
  have hgroups : wholeGroups s.k [] = [] := wholeGroups_of_length_lt s.k_pos
  simp [State.afterBytes, hgroups, leftover, valueOf, State.openFrame]

@[simp] theorem State.afterBytes_k (s : State) (bytes : List Byte) : (s.afterBytes bytes).k = s.k := rfl

@[simp] theorem State.afterBytes_symOut (s : State) (bytes : List Byte) : (s.afterBytes bytes).symOut = s.symOut := rfl

/-- ENC_BYTE on a datapath that holds a bit string: the byte's bits follow, the whole groups leave, the bits left over
stay (41_encoder.md R122). -/
theorem encByteEffect_of_held {s : State} {held : List Bool} (hacc : s.acc.toNat = valueOf held)
    (hbits : s.bits.toNat = held.length) (b : Byte) : encByteEffect b s =
    { s with
      acc := BitVec.ofNat 32 (valueOf (leftover s.k (held ++ bitsOf 8 b.toNat)))
      bits := BitVec.ofNat 32 (leftover s.k (held ++ bitsOf 8 b.toNat)).length
      incnt := s.incnt + 1
      outcnt := s.outcnt + BitVec.ofNat 32 (wholeGroups s.k (held ++ bitsOf 8 b.toNat)).length
      out := s.out ++ (wholeGroups s.k (held ++ bitsOf 8 b.toNat)).map s.symOut } := by
  have hvalue : s.acc.toNat * 2 ^ 8 + b.toNat = valueOf (held ++ bitsOf 8 b.toNat) := by
    rw [hacc, valueOf_append, length_bitsOf, valueOf_bitsOf_byte]
  have hlength : s.bits.toNat + 8 = (held ++ bitsOf 8 b.toNat).length := by
    rw [hbits, List.length_append, length_bitsOf]
  rw [encByteEffect_eq, hvalue, hlength, ← valueOf_leftover, length_leftover, length_wholeGroups, wholeGroups_eq_div,
    List.map_map]
  rfl

/-- ENC_BYTE goes on cutting with the bits left over (41_encoder.md R122). -/
theorem encByteEffect_afterBytes (s : State) (bytes : List Byte) (b : Byte) :
    encByteEffect b (s.afterBytes bytes) = s.afterBytes (bytes ++ [b]) := by
  have hleft := leftover_append s.k_pos (byteBits bytes) (bitsOf 8 b.toNat)
  have hgroups := wholeGroups_append s.k_pos (byteBits bytes) (bitsOf 8 b.toNat)
  rw [← byteBits_concat] at hleft hgroups
  rw [encByteEffect_of_held (s.afterBytes_acc_toNat bytes) (s.afterBytes_bits_toNat bytes), State.afterBytes_k,
    State.afterBytes_symOut, ← hleft]
  simp only [State.afterBytes, hgroups, List.map_append, List.length_append, BitVec.ofNat_add, List.append_assoc]
  rfl

theorem exec_encBegin {s : State} (hidle : s.mode = .idle) : exec .encBegin s = .next (s.openFrame .enc) :=
  exec_of_mem_okModes rfl (by simp [hidle])

/-- The frame's bytes, run in order (41_encoder.md R120). -/
theorem runAll_encByte (s : State) (bytes : List Byte) :
    runAll (bytes.map .encByte) (s.openFrame .enc) = .next (s.afterBytes bytes) := by
  induction bytes using List.reverseRecOn with
  | nil => rw [s.afterBytes_nil]; rfl
  | append_singleton bytes b ih =>
    have hstep : exec (.encByte b) (s.afterBytes bytes) = .next (s.afterBytes (bytes ++ [b])) := by
      rw [exec_of_mem_okModes rfl (by simp [State.afterBytes]), effectOf, encByteEffect_afterBytes]
    rw [List.map_append, runAll_append ih, List.map_singleton, runAll_cons hstep]
    rfl

/-! ### The end of the frame -/

/-- The zero bits that fill the last group of n bits cut to width k (41_encoder.md R123). -/
def zeroFill (k n : Nat) : List Bool := List.replicate ((k - n % k) % k) false

theorem length_append_zeroFill (s : State) (bytes : List Byte) :
    (byteBits bytes ++ zeroFill s.k (byteBits bytes).length).length =
      s.k * ((8 * bytes.length + s.k - 1) / s.k) := by
  rw [List.length_append, zeroFill, List.length_replicate, length_byteBits]
  rcases s.k_cases with hk | hk | hk | hk <;> rw [hk] <;> omega

/-- The groups of the reference are those of the bit string filled with zeros (41_encoder.md R120, R124). -/
theorem groupValues_eq (s : State) (bytes : List Byte) :
    groupValues s.k bytes = wholeGroups s.k (byteBits bytes ++ zeroFill s.k (byteBits bytes).length) := by
  rw [groupValues, wholeGroups, length_append_zeroFill, Nat.mul_div_cancel_left _ s.k_pos]
  exact List.map_congr_left fun j _ => (bitGroup_append_zeros _ _ _ _).symm

theorem length_groupValues (k : Nat) (bytes : List Byte) :
    (groupValues k bytes).length = (8 * bytes.length + k - 1) / k := by
  rw [groupValues, List.length_map, List.length_range]

/-- The last group, when bits are left over, is those bits and zeros below (41_encoder.md R123). -/
theorem finalSymbol_afterBytes (s : State) (bytes : List Byte) : (s.afterBytes bytes).finalSymbol =
    (wholeGroups s.k (leftover s.k (byteBits bytes) ++ zeroFill s.k (byteBits bytes).length)).map s.symOut := by
  have hlt := s.length_leftover_lt (byteBits bytes)
  have hlen := length_leftover s.k (byteBits bytes)
  rw [State.finalSymbol_eq, s.afterBytes_bits_toNat, s.afterBytes_acc_toNat, zeroFill, ← hlen]
  generalize leftover s.k (byteBits bytes) = left at hlt
  by_cases hsome : 0 < left.length
  · have hzeros : (s.k - left.length) % s.k = s.k - left.length := Nat.mod_eq_of_lt (by omega)
    have hfull : (left ++ List.replicate (s.k - left.length) false).length = s.k := by
      rw [List.length_append, List.length_replicate]
      omega
    have hvalue : valueOf (left ++ List.replicate (s.k - left.length) false) =
        valueOf left * 2 ^ (s.k - left.length) := by
      rw [valueOf_append, valueOf_replicate_false, List.length_replicate, Nat.add_zero]
    have hcut := valueOf_lt (left ++ List.replicate (s.k - left.length) false)
    rw [hfull, hvalue] at hcut
    rw [if_pos hsome, hzeros, wholeGroups_of_length_eq s.k_pos hfull, hvalue]
    exact congrArg (fun v => [s.symOut v]) (Nat.mod_eq_of_lt hcut)
  · obtain rfl := List.eq_nil_of_length_eq_zero (Nat.eq_zero_of_not_pos hsome)
    rw [if_neg hsome, List.length_nil, Nat.sub_zero, Nat.mod_self, List.replicate_zero, List.append_nil,
      wholeGroups_of_length_lt hlt, List.map_nil]

/-- The frame's symbols: the whole groups', then the final one (41_encoder.md R120, R123). -/
theorem symbols_afterBytes (s : State) (bytes : List Byte) :
    (wholeGroups s.k (byteBits bytes)).map s.symOut ++ (s.afterBytes bytes).finalSymbol =
      (groupValues s.k bytes).map s.symOut := by
  rw [finalSymbol_afterBytes, groupValues_eq, wholeGroups_append s.k_pos (byteBits bytes), List.map_append]

/-- The pads of a frame in n data symbols, n modulo 2^32 being their count (41_encoder.md R123). -/
theorem padsAfter_eq (s : State) (n : Nat) : padsAfter s n =
    match s.rom.padSym s.cfg.alpha with
    | none => []
    | some p => if s.cfg.padEn && padWidth s.k then List.replicate (padsDue s.k (n % 2 ^ 32)) p else [] := by
  rw [padsDue_mod_two_pow, padsAfter]
  cases s.rom.padSym s.cfg.alpha with
  | none => rfl
  | some p => simp only [Bool.and_eq_true, padWidth_eq_true_iff]; rfl

/-- The idle state after an encode frame of the given bytes (41_encoder.md R120, R123). -/
def State.encoded (s : State) (bytes : List Byte) : State :=
  { s.openFrame .idle with
    incnt := BitVec.ofNat 32 bytes.length
    outcnt := BitVec.ofNat 32 (encoding s bytes).length
    done := true
    out := s.out ++ encoding s bytes }

theorem encEndEffect_afterBytes (s : State) (bytes : List Byte) :
    encEndEffect (s.afterBytes bytes) = s.encoded bytes := by
  obtain ⟨pads, heq, hpads⟩ := encEndEffect_eq (s.afterBytes bytes)
  have hsymbols := symbols_afterBytes s bytes
  have hcount : (s.afterBytes bytes).outcnt + BitVec.ofNat 32 (s.afterBytes bytes).finalSymbol.length =
      BitVec.ofNat 32 (groupValues s.k bytes).length := by
    rw [← List.length_map s.symOut, ← hsymbols, List.length_append, List.length_map, BitVec.ofNat_add]
    rfl
  have hpadsAfter : pads = padsAfter s (groupValues s.k bytes).length := by
    rw [padsAfter_eq, ← BitVec.toNat_ofNat, ← hcount]
    exact hpads
  have hitems : (s.afterBytes bytes).out ++ ((s.afterBytes bytes).finalSymbol ++ pads) = s.out ++ encoding s bytes := by
    rw [encoding, ← hsymbols, hpadsAfter]
    simp only [State.afterBytes, List.append_assoc]
  have htotal : (s.afterBytes bytes).outcnt + BitVec.ofNat 32 ((s.afterBytes bytes).finalSymbol ++ pads).length =
      BitVec.ofNat 32 (encoding s bytes).length := by
    rw [List.length_append, BitVec.ofNat_add, ← BitVec.add_assoc, hcount, hpadsAfter, encoding, List.length_append,
      List.length_map, BitVec.ofNat_add]
  rw [heq, hitems, htotal]
  rfl

/-- An encode frame, all of its effect (41_encoder.md R120). -/
theorem runAll_encodeFrame {s : State} (hidle : s.mode = .idle) (bytes : List Byte) :
    runAll (encodeFrame bytes) s = .next (s.encoded bytes) := by
  have hend : exec .encEnd (s.afterBytes bytes) = .next (s.encoded bytes) := by
    rw [exec_of_mem_okModes rfl (by simp [State.afterBytes]), effectOf, encEndEffect_afterBytes]
  rw [encodeFrame, List.cons_append, runAll_cons (exec_encBegin hidle), runAll_append (runAll_encByte s bytes),
    runAll_cons hend]
  rfl

/-- Settles O42: after each byte the frame holds the bits left over and has emitted the whole groups; ENC_END completes
the last group and the block. -/
theorem encodeFrameIsTheBitStringEncoding : Obligations.EncodeFrameIsTheBitStringEncoding := by
  unfold Obligations.EncodeFrameIsTheBitStringEncoding
  intro s bs hidle
  exact ⟨s.encoded bs, runAll_encodeFrame hidle bs, rfl, rfl, rfl, rfl, rfl, rfl, rfl, rfl, rfl⟩

/-- The encoding reads the configuration and the ROM alone (41_encoder.md R127). -/
theorem encoding_congr {s s' : State} (hcfg : s'.cfg = s.cfg) (hrom : s'.rom = s.rom) (bytes : List Byte) :
    encoding s' bytes = encoding s bytes := by
  have hk : s'.k = s.k := by rw [State.k, hcfg, State.k]
  have hsym : s'.symOut = s.symOut := by funext v; rw [State.symOut, hcfg, hrom, State.symOut]
  rw [encoding, encoding, padsAfter, padsAfter, hk, hsym, hcfg, hrom]

/-- Settles O43: either frame appends the encoding, which reads CFG and the ROM alone. -/
theorem encodeFrameDependsOnBytesAndCfgAlone : Obligations.EncodeFrameDependsOnBytesAndCfgAlone := by
  unfold Obligations.EncodeFrameDependsOnBytesAndCfgAlone
  intro bs s s' hidle hidle' hcfg hrom
  refine ⟨encoding s bs, s.encoded bs, s'.encoded bs, runAll_encodeFrame hidle bs,
    runAll_encodeFrame hidle' bs, rfl, ?_⟩
  rw [← encoding_congr hcfg hrom bs]
  rfl

/-! ### The length of an encoding -/

/-- There are no pads, or those due (41_encoder.md R123). -/
theorem length_padsAfter_cases (s : State) (n : Nat) :
    (padsAfter s n).length = 0 ∨ (padsAfter s n).length = padsDue s.k n := by
  rw [padsAfter]
  split
  · exact .inl rfl
  · split
    · exact .inr (List.length_replicate ..)
    · exact .inl rfl

theorem length_padsAfter_le (s : State) (n : Nat) : (padsAfter s n).length ≤ padsDue s.k n := by
  rcases length_padsAfter_cases s n with h | h <;> omega

theorem padsAfter_of_unpadded {s : State} (h : s.cfg.padEn = false ∨ s.k = 1 ∨ s.k = 4) (n : Nat) :
    padsAfter s n = [] := by
  have hoff : ¬(s.cfg.padEn = true ∧ (s.k = 5 ∨ s.k = 6)) := by
    rintro ⟨hen, hk⟩
    rcases h with hoff | hk'
    · simp [hoff] at hen
    · omega
  rw [padsAfter]
  split
  · rfl
  · exact if_neg hoff

theorem length_padsAfter_of_padded {s : State} (hen : s.cfg.padEn = true) (hk : s.k = 5 ∨ s.k = 6)
    (hpad : s.rom.padSym s.cfg.alpha ≠ none) (n : Nat) : (padsAfter s n).length = padsDue s.k n := by
  obtain ⟨p, hp⟩ := Option.ne_none_iff_exists'.1 hpad
  simp only [padsAfter, hp, hen, hk, true_and, if_true]
  exact List.length_replicate ..

/-- The pads due complete a symbol count to whole blocks (41_encoder.md R123). -/
theorem add_padsDue (s : State) (n : Nat) : n + padsDue s.k n = (n ⌈/⌉ symbolsPerBlock s.k) * symbolsPerBlock s.k := by
  obtain ⟨hlt, hwhole⟩ := padsDue_spec s n
  rw [Nat.ceilDiv_eq_add_pred_div]
  rcases s.k_cases with hk | hk | hk | hk <;> rw [hk] at hlt hwhole ⊢ <;>
    simp only [symbolsPerBlock_1, symbolsPerBlock_4, symbolsPerBlock_5, symbolsPerBlock_6] at hlt hwhole ⊢ <;> omega

/-- SIZE_ENC's value is the data symbols of n bytes and the pads due after them (41_encoder.md R125, 44_sizing.md
R190). -/
theorem maxEncodeSize_eq_add_padsDue (s : State) (n : Nat) : maxEncodeSize s.k n =
    (8 * n + s.k - 1) / s.k + padsDue s.k ((8 * n + s.k - 1) / s.k) := by
  rw [maxEncodeSize_eq_ceilDiv, ← ceilDiv_symbolsPerBlock s.k_pos, ← add_padsDue, Nat.ceilDiv_eq_add_pred_div]

theorem length_encoding (s : State) (bytes : List Byte) : (encoding s bytes).length =
    (8 * bytes.length + s.k - 1) / s.k + (padsAfter s ((8 * bytes.length + s.k - 1) / s.k)).length := by
  rw [encoding, List.length_append, List.length_map, length_groupValues]

/-- Settles O44: the frame appends the data symbols and the pads after them, which are those due when padding applies
and never more. -/
theorem encodeFrameLengthIsTheSizeBound : Obligations.EncodeFrameLengthIsTheSizeBound := by
  unfold Obligations.EncodeFrameLengthIsTheSizeBound
  intro s bs hidle
  refine ⟨s.encoded bs, encoding s bs, runAll_encodeFrame hidle bs, rfl, ?bound, fun hoff => ?unpadded,
    fun hen hk hpad => ?padded⟩
  case bound =>
    rw [length_encoding, maxEncodeSize_eq_add_padsDue]
    exact Nat.add_le_add_left (length_padsAfter_le s _) _
  case unpadded => rw [length_encoding, padsAfter_of_unpadded hoff, List.length_nil, Nat.add_zero]
  case padded =>
    rw [length_encoding, length_padsAfter_of_padded hen hk hpad, ← maxEncodeSize_eq_add_padsDue]
    rfl

end Sys2Proof.Machine
end

section
/-! The decode frame: after data symbols and pads the block holds the bits left over and has emitted the whole bytes;
the first character that fits neither class ends it in HALT; DEC_END judges the length (42_decoder.md R140 to R157). -/

namespace Sys2Proof.Machine

theorem symbolBits_concat (k : Nat) (vs : List Nat) (v : Nat) :
    symbolBits k (vs ++ [v]) = symbolBits k vs ++ bitsOf k v := by
  simp [symbolBits]

theorem length_symbolBits (k : Nat) (vs : List Nat) : (symbolBits k vs).length = vs.length * k :=
  length_flatMap_bitsOf k vs

theorem wholeBytes_eq (k : Nat) (vs : List Nat) :
    wholeBytes k vs = (wholeGroups 8 (symbolBits k vs)).map (BitVec.ofNat 8) := by
  rw [wholeBytes, wholeGroups, length_symbolBits, List.map_map]
  rfl

theorem length_wholeBytes (k : Nat) (vs : List Nat) : (wholeBytes k vs).length = vs.length * k / 8 := by
  rw [wholeBytes, List.length_map, List.length_range]

theorem leftoverBits_eq (k : Nat) (vs : List Nat) : leftoverBits k vs = leftover 8 (symbolBits k vs) := by
  rw [leftoverBits, leftover, length_symbolBits]

/-! ### The frame's states -/

/-- The decode frame of an idle state s after n characters that are, less the skipped ones, data symbols of the given
values and then pads (42_decoder.md R142 to R147). -/
def State.afterChars (s : State) (n : Nat) (vs : List Nat) (pads : Nat) : State :=
  { s.openFrame .dec with
    acc := BitVec.ofNat 32 (valueOf (leftover 8 (symbolBits s.k vs)))
    bits := BitVec.ofNat 32 (leftover 8 (symbolBits s.k vs)).length
    incnt := BitVec.ofNat 32 n
    datacnt := BitVec.ofNat 32 vs.length
    padcnt := BitVec.ofNat 32 (min pads (2 ^ 32 - 1))
    outcnt := BitVec.ofNat 32 (wholeBytes s.k vs).length
    out := s.out ++ wholeBytes s.k vs }

section AfterChars

variable (s : State) (n : Nat) (vs : List Nat) (pads : Nat)

theorem length_leftover_byte_lt (bits : List Bool) : (leftover 8 bits).length < 8 := by
  rw [length_leftover]
  exact Nat.mod_lt _ (by decide)

theorem State.afterChars_acc_toNat : (s.afterChars n vs pads).acc.toNat = valueOf (leftover 8 (symbolBits s.k vs)) :=
  toNat_ofNat_valueOf ((length_leftover_byte_lt _).le.trans (by decide))

theorem State.afterChars_bits_toNat : (s.afterChars n vs pads).bits.toNat = (leftover 8 (symbolBits s.k vs)).length :=
  toNat_ofNat_of_lt ((length_leftover_byte_lt _).trans (by decide))

theorem State.afterChars_padcnt_toNat : (s.afterChars n vs pads).padcnt.toNat = min pads (2 ^ 32 - 1) :=
  toNat_ofNat_of_lt ((Nat.min_le_right _ _).trans_lt (by decide))

@[simp] theorem State.afterChars_k : (s.afterChars n vs pads).k = s.k := rfl
@[simp] theorem State.afterChars_mode : (s.afterChars n vs pads).mode = .dec := rfl
@[simp] theorem State.afterChars_skips (c : Byte) : (s.afterChars n vs pads).skips c = s.skips c := rfl
@[simp] theorem State.afterChars_classify (c : Byte) : (s.afterChars n vs pads).classify c = s.classify c := rfl

theorem State.afterChars_incnt_succ :
    { s.afterChars n vs pads with incnt := (s.afterChars n vs pads).incnt + 1 } = s.afterChars (n + 1) vs pads := by
  simp only [State.afterChars, BitVec.ofNat_add]
  rfl

end AfterChars

theorem State.afterChars_nil (s : State) : s.afterChars 0 [] 0 = s.openFrame .dec := by
  simp [State.afterChars, symbolBits, leftover, valueOf, wholeBytes, State.openFrame]

/-- A data symbol on a datapath that holds a bit string of fewer than 8 bits: its bits follow, a whole byte leaves, the
bits left over stay (42_decoder.md R142, R147). -/
theorem decValueEffect_of_held {s : State} {held : List Bool} {v : Nat} (hv : v < 2 ^ s.k)
    (hacc : s.acc.toNat = valueOf held) (hbits : s.bits.toNat = held.length) (hlt : held.length < 8) :
    decValueEffect v s =
    { s with
      datacnt := s.datacnt + 1
      acc := BitVec.ofNat 32 (valueOf (leftover 8 (held ++ bitsOf s.k v)))
      bits := BitVec.ofNat 32 (leftover 8 (held ++ bitsOf s.k v)).length
      outcnt := s.outcnt + BitVec.ofNat 32 (wholeGroups 8 (held ++ bitsOf s.k v)).length
      out := s.out ++ (wholeGroups 8 (held ++ bitsOf s.k v)).map (BitVec.ofNat 8) } := by
  have hvalue : s.acc.toNat * 2 ^ s.k + v = valueOf (held ++ bitsOf s.k v) := by
    rw [hacc, valueOf_append, length_bitsOf, valueOf_bitsOf, Nat.mod_eq_of_lt hv]
  have hlength : s.bits.toNat + s.k = (held ++ bitsOf s.k v).length := by
    rw [hbits, List.length_append, length_bitsOf]
  rw [decValueEffect_eq hv (by omega), hvalue, hlength, ← valueOf_leftover, length_leftover, length_wholeGroups,
    wholeGroups_eq_div, List.map_map]
  rfl

/-! ### One more character -/

section OneCharacter

variable {s : State} {c : Byte} {n : Nat} {vs : List Nat} {pads : Nat}

theorem decSymEffect_afterChars_of_skips (hskip : s.skips c = true) :
    decSymEffect c (s.afterChars n vs pads) = s.afterChars (n + 1) vs pads := by
  rw [decSymEffect_of_skips (by simpa using hskip), State.afterChars_incnt_succ]

theorem decSymEffect_afterChars_of_pad (hskip : s.skips c = false) (hclass : s.classify c = .pad) :
    decSymEffect c (s.afterChars n vs pads) = s.afterChars (n + 1) vs (pads + 1) := by
  have hcount : satInc (s.afterChars n vs pads).padcnt = BitVec.ofNat 32 (min (pads + 1) (2 ^ 32 - 1)) := by
    rw [satInc_eq_ofNat_min, State.afterChars_padcnt_toNat]
    congr 1
    omega
  rw [decSymEffect_of_pad (by simpa using hskip) (by simpa using hclass), hcount]
  simp only [State.afterChars, BitVec.ofNat_add]
  rfl

theorem decSymEffect_afterChars_of_value {v : Nat} (hskip : s.skips c = false) (hclass : s.classify c = .value v) :
    decSymEffect c (s.afterChars n vs 0) = s.afterChars (n + 1) (vs ++ [v]) 0 := by
  have hv : v < 2 ^ s.k := AlphabetRom.rlut_lt hclass
  have hleft := leftover_append (n := 8) (by decide) (symbolBits s.k vs) (bitsOf s.k v)
  have hgroups := wholeGroups_append (n := 8) (by decide) (symbolBits s.k vs) (bitsOf s.k v)
  rw [← symbolBits_concat] at hleft hgroups
  rw [decSymEffect_of_value (by simpa using hskip) (by simpa using hclass) (s.afterChars_padcnt_toNat n vs 0),
    State.afterChars_incnt_succ, decValueEffect_of_held (s := s.afterChars (n + 1) vs 0) hv
    (s.afterChars_acc_toNat _ _ _) (s.afterChars_bits_toNat _ _ _) (length_leftover_byte_lt _), State.afterChars_k,
    ← hleft]
  simp only [State.afterChars, wholeBytes_eq, hgroups, List.map_append, List.length_append, BitVec.ofNat_add,
    List.append_assoc, List.length_map]
  rfl

/-- A character is bad after a count of pads: it is not skipped and is INVALID, or a data symbol after a pad
(60_exceptions.md R202). -/
def State.BadAfter (s : State) (pads : Nat) (c : Byte) : Prop :=
  s.skips c = false ∧ (s.classify c = .invalid ∨ (0 < pads ∧ ∃ v, s.classify c = .value v))

/-- The failed frame: the bytes so far, the verdict at the bad character (42_decoder.md R144, R146; 60_exceptions.md
R206). -/
def State.failedAt (s : State) (n : Nat) (vs : List Nat) (pads : Nat) : State :=
  { s.afterChars (n + 1) vs pads with err := some .invalidChar, errPos := BitVec.ofNat 32 n, mode := .halt }

theorem decSymEffect_afterChars_of_bad (hbad : s.BadAfter pads c) :
    decSymEffect c (s.afterChars n vs pads) = s.failedAt n vs pads := by
  obtain ⟨hskip, hclass⟩ := hbad
  have hrefuses : (s.afterChars n vs pads).Refuses c := by
    refine ⟨hskip, hclass.imp_right fun ⟨hpads, hvalue⟩ => ⟨?_, hvalue⟩⟩
    rw [State.afterChars_padcnt_toNat]
    omega
  rw [decSymEffect_of_refuses hrefuses, State.failedAt, ← State.afterChars_incnt_succ]
  rfl

theorem exec_decSym_afterChars : exec (.decSym c) (s.afterChars n vs pads) =
    .next (decSymEffect c (s.afterChars n vs pads)) :=
  exec_of_mem_okModes rfl (by simp)

end OneCharacter

/-! ### The characters of a frame -/

section Suffixed

variable {s : State} {cs : List Byte} {c : Byte} {vs : List Nat} {pads : Nat}

theorem kept_concat_of_skips (hskip : s.skips c = true) : kept s (cs ++ [c]) = kept s cs := by
  simp [kept, hskip]

theorem kept_concat_of_not_skips (hskip : s.skips c = false) : kept s (cs ++ [c]) = kept s cs ++ [c] := by
  simp [kept, hskip]

theorem suffixed_nil : Suffixed s [] [] 0 := rfl

theorem suffixed_concat_of_skips (hskip : s.skips c = true) :
    Suffixed s (cs ++ [c]) vs pads ↔ Suffixed s cs vs pads := by
  rw [Suffixed, kept_concat_of_skips hskip]

theorem suffixed_concat_of_pad (hskip : s.skips c = false) (hclass : s.classify c = .pad) (h : Suffixed s cs vs pads) :
    Suffixed s (cs ++ [c]) vs (pads + 1) := by
  rw [Suffixed, kept_concat_of_not_skips hskip, List.map_append, h, List.map_singleton, hclass, List.replicate_succ',
    List.append_assoc]

theorem suffixed_concat_of_value {v : Nat} (hskip : s.skips c = false) (hclass : s.classify c = .value v)
    (h : Suffixed s cs vs 0) : Suffixed s (cs ++ [c]) (vs ++ [v]) 0 := by
  rw [Suffixed, kept_concat_of_not_skips hskip, List.map_append, h, List.map_singleton, hclass]
  simp

/-- The last character of such a sequence: skipped, the last pad, or the last data symbol of a sequence without pads. -/
theorem suffixed_concat_cases (h : Suffixed s (cs ++ [c]) vs pads) :
    (s.skips c = true ∧ Suffixed s cs vs pads) ∨
    (s.skips c = false ∧ s.classify c = .pad ∧ ∃ p, pads = p + 1 ∧ Suffixed s cs vs p) ∨
    (s.skips c = false ∧ pads = 0 ∧ ∃ us v, vs = us ++ [v] ∧ s.classify c = .value v ∧ Suffixed s cs us 0) := by
  cases hskip : s.skips c with
  | true => exact .inl ⟨rfl, (suffixed_concat_of_skips hskip).1 h⟩
  | false =>
    rw [Suffixed, kept_concat_of_not_skips hskip, List.map_append, List.map_singleton] at h
    cases pads with
    | succ p =>
      rw [List.replicate_succ', ← List.append_assoc] at h
      obtain ⟨hrest, hlast⟩ := List.append_inj' h rfl
      exact .inr (.inl ⟨rfl, List.singleton_inj.1 hlast, p, rfl, hrest⟩)
    | zero =>
      rw [List.replicate_zero, List.append_nil] at h
      rcases List.eq_nil_or_concat vs with rfl | ⟨us, v, rfl⟩
      · simp at h
      · rw [List.concat_eq_append, List.map_append, List.map_singleton] at h
        obtain ⟨hrest, hlast⟩ := List.append_inj' h rfl
        exact .inr (.inr ⟨rfl, rfl, us, v, List.concat_eq_append, List.singleton_inj.1 hlast,
          by simp [Suffixed, hrest]⟩)

/-- Every character sequence is data symbols and then pads, less the skipped ones, or has a first bad character after
such a sequence (42_decoder.md R143 to R146). -/
theorem suffixed_or_bad (s : State) (cs : List Byte) :
    (∃ vs pads, Suffixed s cs vs pads) ∨
    (∃ before c after vs pads, cs = before ++ c :: after ∧ Suffixed s before vs pads ∧ s.BadAfter pads c) := by
  induction cs using List.reverseRecOn with
  | nil => exact .inl ⟨[], 0, suffixed_nil⟩
  | append_singleton cs c ih =>
    rcases ih with ⟨vs, pads, h⟩ | ⟨before, b, after, vs, pads, rfl, h, hbad⟩
    · cases hskip : s.skips c with
      | true => exact .inl ⟨vs, pads, (suffixed_concat_of_skips hskip).2 h⟩
      | false =>
        cases hclass : s.classify c with
        | invalid => exact .inr ⟨cs, c, [], vs, pads, rfl, h, hskip, .inl hclass⟩
        | pad => exact .inl ⟨vs, pads + 1, suffixed_concat_of_pad hskip hclass h⟩
        | value v =>
          rcases Nat.eq_zero_or_pos pads with rfl | hpads
          · exact .inl ⟨vs ++ [v], 0, suffixed_concat_of_value hskip hclass h⟩
          · exact .inr ⟨cs, c, [], vs, pads, rfl, h, hskip, .inr ⟨hpads, v, hclass⟩⟩
    · exact .inr ⟨before, b, after ++ [c], vs, pads, by simp, h, hbad⟩

/-- There are at most as many data symbols as characters. -/
theorem length_le_of_suffixed (h : Suffixed s cs vs pads) : vs.length ≤ cs.length := by
  have hlen := congrArg List.length h
  have hkept : (kept s cs).length ≤ cs.length := List.length_filter_le _ _
  rw [List.length_map, List.length_append, List.length_map] at hlen
  omega

end Suffixed

theorem exec_decBegin {s : State} (hidle : s.mode = .idle) : exec .decBegin s = .next (s.openFrame .dec) :=
  exec_of_mem_okModes rfl (by simp [hidle])

/-- The frame's characters, run in order (42_decoder.md R140). -/
theorem runAll_decSym {s : State} {cs : List Byte} {vs : List Nat} {pads : Nat} (h : Suffixed s cs vs pads) :
    runAll (cs.map .decSym) (s.openFrame .dec) = .next (s.afterChars cs.length vs pads) := by
  induction cs using List.reverseRecOn generalizing vs pads with
  | nil =>
    obtain ⟨hvs, hpads⟩ := List.append_eq_nil_iff.1 h.symm
    obtain rfl := List.map_eq_nil_iff.1 hvs
    obtain rfl : pads = 0 := by simpa using hpads
    rw [← s.afterChars_nil]
    rfl
  | append_singleton cs c ih =>
    have hstep {us : List Nat} {p : Nat} (hrest : Suffixed s cs us p)
        (heffect : decSymEffect c (s.afterChars cs.length us p) = s.afterChars (cs.length + 1) vs pads) :
        runAll ((cs ++ [c]).map .decSym) (s.openFrame .dec) = .next (s.afterChars (cs ++ [c]).length vs pads) := by
      rw [List.map_append, runAll_append (ih hrest), List.map_singleton, runAll_cons exec_decSym_afterChars, heffect,
        List.length_append]
      rfl
    rcases suffixed_concat_cases h with ⟨hskip, hrest⟩ | ⟨hskip, hclass, p, rfl, hrest⟩ |
      ⟨hskip, rfl, us, v, rfl, hclass, hrest⟩
    · exact hstep hrest (decSymEffect_afterChars_of_skips hskip)
    · exact hstep hrest (decSymEffect_afterChars_of_pad hskip hclass)
    · exact hstep hrest (decSymEffect_afterChars_of_value hskip hclass)

/-! ### The end of the frame -/

/-- The block's length checks are the length rule, although its counters wrap or saturate (42_decoder.md R149 to
R151). -/
theorem lengthOk_afterChars_iff (s : State) (n : Nat) (vs : List Nat) (pads : Nat) :
    (s.afterChars n vs pads).lengthOk = true ↔ LengthValid s vs pads := by
  have hdue : padsDue s.k (s.afterChars n vs pads).datacnt.toNat = padsDue s.k vs.length := by
    rw [← padsDue_mod_two_pow s vs.length]
    exact congrArg (padsDue s.k) (BitVec.toNat_ofNat _ _)
  have hsmall : padsDue s.k vs.length < 8 := (padsDue_spec s vs.length).1.trans_le (Nat.div_le_self 8 _)
  have hpads : (min pads (2 ^ 32 - 1) = 0 ∨ min pads (2 ^ 32 - 1) = padsDue s.k vs.length) ↔
      (pads = 0 ∨ pads = padsDue s.k vs.length) := by omega
  have hzero : (s.afterChars n vs pads).acc = 0 ↔ ∀ b ∈ leftoverBits s.k vs, b = false := by
    rw [leftoverBits_eq, ← valueOf_eq_zero_iff, ← s.afterChars_acc_toNat n vs pads]
    exact BitVec.toNat_inj.symm
  rw [State.lengthOk_iff, State.afterChars_bits_toNat, State.afterChars_padcnt_toNat, State.afterChars_k, hdue, hpads,
    hzero, length_leftover, length_symbolBits]
  rfl

/-- The idle state after a decode frame without a bad character, with its verdict (42_decoder.md R148). -/
def State.decoded (s : State) (n : Nat) (vs : List Nat) (pads : Nat) (verdict : Option DecodeError) (pos : Word)
    (success : Bool) : State :=
  { (s.afterChars n vs pads).closeFrame with err := verdict, errPos := pos, done := success }

theorem exec_decEnd_afterChars_of_valid {s : State} {vs : List Nat} {pads : Nat} (h : LengthValid s vs pads) (n : Nat) :
    exec .decEnd (s.afterChars n vs pads) = .next (s.decoded n vs pads none 0 true) := by
  rw [exec_of_mem_okModes rfl (by simp), effectOf, decVerdict_dec rfl,
    if_pos ((lengthOk_afterChars_iff s n vs pads).2 h)]
  rfl

theorem exec_decEnd_afterChars_of_not_valid {s : State} {vs : List Nat} {pads : Nat} (h : ¬LengthValid s vs pads)
    (n : Nat) : exec .decEnd (s.afterChars n vs pads) =
      .next (s.decoded n vs pads (some .invalidLength) (BitVec.ofNat 32 n) false) := by
  rw [exec_of_mem_okModes rfl (by simp), effectOf, decVerdict_dec rfl,
    if_neg fun hok => h ((lengthOk_afterChars_iff s n vs pads).1 hok)]
  rfl

theorem runAll_decodeFrame_of_suffixed {s t : State} {cs : List Byte} {vs : List Nat} {pads : Nat}
    (hidle : s.mode = .idle) (h : Suffixed s cs vs pads)
    (hend : exec .decEnd (s.afterChars cs.length vs pads) = .next t) : runAll (decodeFrame cs) s = .next t := by
  rw [decodeFrame, List.cons_append, runAll_cons (exec_decBegin hidle), runAll_append (runAll_decSym h),
    runAll_cons hend]
  rfl

/-- Settles O51: after its characters the frame has emitted the whole bytes and holds the bits left over, and DEC_END's
checks on the counters are the length rule. -/
theorem decodeFrameUnpacksTheBitString : Obligations.DecodeFrameUnpacksTheBitString := by
  unfold Obligations.DecodeFrameUnpacksTheBitString
  intro s cs vs pads hidle h
  by_cases hvalid : LengthValid s vs pads
  · exact ⟨_, runAll_decodeFrame_of_suffixed hidle h (exec_decEnd_afterChars_of_valid hvalid cs.length),
      rfl, rfl, rfl, rfl, rfl, rfl, rfl, fun _ => ⟨rfl, rfl, rfl⟩, fun hnot => absurd hvalid hnot⟩
  · exact ⟨_, runAll_decodeFrame_of_suffixed hidle h (exec_decEnd_afterChars_of_not_valid hvalid cs.length),
      rfl, rfl, rfl, rfl, rfl, rfl, rfl, fun hyes => absurd hyes hvalid, fun _ => ⟨rfl, rfl, rfl⟩⟩

/-- A frame with a bad character, all of its effect: HALT drops what follows and DEC_END closes it (60_exceptions.md
section 2). -/
theorem runAll_decodeFrame_of_bad {s : State} {before : List Byte} {c : Byte} {vs : List Nat} {pads : Nat}
    (hidle : s.mode = .idle) (h : Suffixed s before vs pads) (hbad : s.BadAfter pads c) (after : List Byte) :
    runAll (decodeFrame (before ++ c :: after)) s = .next (s.failedAt before.length vs pads).closeFrame := by
  have hfail : exec (.decSym c) (s.afterChars before.length vs pads) = .next (s.failedAt before.length vs pads) := by
    rw [exec_decSym_afterChars, decSymEffect_afterChars_of_bad hbad]
  have hdrop := haltDropsEveryCharacter after (s.failedAt before.length vs pads) rfl
  have hend := exec_ends_halt (s := s.failedAt before.length vs pads) rfl (.inl rfl)
  rw [decodeFrame, List.cons_append, runAll_cons (exec_decBegin hidle), List.map_append, List.append_assoc,
    runAll_append (runAll_decSym h), List.map_cons, List.cons_append, runAll_cons hfail, runAll_append hdrop,
    runAll_cons hend]
  rfl

/-- Settles O52: the good characters before it run as in any frame, the bad one enters HALT, and what follows changes
nothing but MODE. -/
theorem decodeFrameFailsAtTheFirstBadCharacter : Obligations.DecodeFrameFailsAtTheFirstBadCharacter := by
  unfold Obligations.DecodeFrameFailsAtTheFirstBadCharacter
  intro s before after c vs pads hidle h hskip hclass
  exact ⟨_, runAll_decodeFrame_of_bad hidle h ⟨hskip, hclass⟩ after, rfl, rfl, rfl, rfl, rfl, rfl, rfl⟩

/-- Settles O55: a frame appends the whole bytes of its data symbols, up to its first bad character if it has one, and
these are no more than its characters. -/
theorem decodeFrameStaysWithinTheSizeBound : Obligations.DecodeFrameStaysWithinTheSizeBound := by
  unfold Obligations.DecodeFrameStaysWithinTheSizeBound
  intro s cs hidle
  have hbound {vs : List Nat} (hle : vs.length ≤ cs.length) :
      (wholeBytes s.k vs).length ≤ maxDecodeSize s.k cs.length := by
    rw [length_wholeBytes, maxDecodeSize]
    exact Nat.div_le_div_right (Nat.mul_le_mul_right s.k hle)
  rcases suffixed_or_bad s cs with ⟨vs, pads, h⟩ | ⟨before, c, after, vs, pads, rfl, h, hbad⟩
  · obtain ⟨t, hrun, hout, -⟩ := decodeFrameUnpacksTheBitString s cs vs pads hidle h
    exact ⟨t, _, hrun, hout, hbound (length_le_of_suffixed h)⟩
  · refine ⟨_, _, runAll_decodeFrame_of_bad hidle h hbad after, rfl, hbound ((length_le_of_suffixed h).trans ?_)⟩
    rw [List.length_append]
    exact Nat.le_add_right _ _

end Sys2Proof.Machine
end

section
/-! The round trip, and the case-folding alphabets: what an encode frame emits decodes to its bytes, and letter case
does not matter to base16, base32 and base32hex (42_decoder.md section 3; 40_alphabet.md R109 to R112). -/

namespace Sys2Proof.Machine

/-! ### The classes of an encoding's items -/

/-- An alphabet without case variants encodes alike in both cases (40_alphabet.md R109, R110). -/
theorem AlphabetRom.fwd_of_fold_eq_false {r : AlphabetRom} {a : Alphabet} (h : r.fold a = false) (v : Nat) :
    r.fwd a false v = r.fwd a true v := by
  have hlow : (r.data.entry a).low = none := Option.isNone_iff_eq_none.1 (by simpa [AlphabetRom.fold] using h)
  simp only [AlphabetRom.fwd, hlow]

/-- The decoder's lookup inverts the encoder's, in either case (40_alphabet.md R112). -/
theorem AlphabetRom.rlut_fwd {r : AlphabetRom} {a : Alphabet} {v : Nat} (hv : v < 2 ^ widthOf a) (u : Bool) :
    r.rlut a (r.fwd a u v) = .value v := by
  refine (r.rlut_eq_value_iff a _ v).2 ⟨hv, ?_⟩
  cases u with
  | true => exact .inl rfl
  | false =>
    cases hfold : r.fold a with
    | true => exact .inr ⟨rfl, rfl⟩
    | false => exact .inl (AlphabetRom.fwd_of_fold_eq_false hfold v).symm

theorem groupValues_lt {k v : Nat} {bytes : List Byte} (hv : v ∈ groupValues k bytes) : v < 2 ^ k := by
  obtain ⟨j, -, rfl⟩ := List.mem_map.1 hv
  exact bitGroup_lt k _ j

/-- The pads are the pad symbol (41_encoder.md R123). -/
theorem padSym_of_mem_padsAfter {s : State} {n : Nat} {c : Byte} (hc : c ∈ padsAfter s n) :
    s.rom.padSym s.cfg.alpha = some c := by
  cases hpad : s.rom.padSym s.cfg.alpha with
  | none => simp [padsAfter, hpad] at hc
  | some p =>
    by_cases hon : s.cfg.padEn = true ∧ (s.k = 5 ∨ s.k = 6)
    · simp only [padsAfter, hpad, if_pos hon] at hc
      rw [List.eq_of_mem_replicate hc]
    · simp [padsAfter, hpad, if_neg hon] at hc

/-- No item of an encoding is skipped, when no symbol of the alphabet and not its pad is. -/
theorem kept_encoding {s : State} (hsym : ∀ u v, v < 2 ^ s.k → s.skips (s.rom.fwd s.cfg.alpha u v) = false)
    (hpad : ∀ p, s.rom.padSym s.cfg.alpha = some p → s.skips p = false) (bytes : List Byte) :
    kept s (encoding s bytes) = encoding s bytes := by
  refine List.filter_eq_self.2 fun c hc => ?_
  rw [Bool.not_eq_true']
  rcases List.mem_append.1 hc with hc | hc
  · obtain ⟨v, hv, rfl⟩ := List.mem_map.1 hc
    exact hsym _ v (groupValues_lt hv)
  · exact hpad c (padSym_of_mem_padsAfter hc)

/-- An encoding reads as its groups' values and then pads (40_alphabet.md R112). -/
theorem suffixed_encoding {s : State} (hsym : ∀ u v, v < 2 ^ s.k → s.skips (s.rom.fwd s.cfg.alpha u v) = false)
    (hpad : ∀ p, s.rom.padSym s.cfg.alpha = some p → s.skips p = false) (bytes : List Byte) :
    Suffixed s (encoding s bytes) (groupValues s.k bytes) (padsAfter s (groupValues s.k bytes).length).length := by
  rw [Suffixed, kept_encoding hsym hpad, encoding, List.map_append, List.map_map]
  refine congrArg₂ _ (List.map_congr_left fun v hv => AlphabetRom.rlut_fwd (groupValues_lt hv) _) ?_
  refine List.eq_replicate_iff.2 ⟨List.length_map _, fun x hx => ?_⟩
  obtain ⟨c, hc, rfl⟩ := List.mem_map.1 hx
  exact (s.rom.rlut_eq_pad_iff s.cfg.alpha c).2 (padSym_of_mem_padsAfter hc)

/-! ### The bytes of an encoding -/

theorem length_zeroFill_lt {k : Nat} (hk : 0 < k) (n : Nat) : (zeroFill k n).length < k := by
  rw [zeroFill, List.length_replicate]
  exact Nat.mod_lt _ hk

/-- The symbols of an encoding spell the bytes' bit string and the zeros that fill the last group (41_encoder.md
R123). -/
theorem symbolBits_groupValues (s : State) (bytes : List Byte) :
    symbolBits s.k (groupValues s.k bytes) = byteBits bytes ++ zeroFill s.k (byteBits bytes).length := by
  rw [symbolBits, groupValues_eq, flatMap_bitsOf_wholeGroups s.k_pos (length_append_zeroFill s bytes)]

theorem length_zeroFill_lt_byte (s : State) (n : Nat) : (zeroFill s.k n).length < 8 := by
  have := length_zeroFill_lt s.k_pos n
  have := s.k_cases
  omega

theorem wholeGroups_byteBits (bytes : List Byte) : wholeGroups 8 (byteBits bytes) = bytes.map BitVec.toNat := by
  rw [byteBits_eq]
  refine wholeGroups_flatMap_bitsOf (by decide) fun v hv => ?_
  obtain ⟨b, -, rfl⟩ := List.mem_map.1 hv
  exact b.isLt

/-- The whole bytes of the symbols are the bytes: the zeros make none (42_decoder.md R154, R156). -/
theorem wholeBytes_groupValues (s : State) (bytes : List Byte) : wholeBytes s.k (groupValues s.k bytes) = bytes := by
  rw [wholeBytes_eq, symbolBits_groupValues, wholeGroups_append_of_dvd (by decide) (length_byteBits bytes),
    wholeGroups_of_length_lt (length_zeroFill_lt_byte s _), List.append_nil, wholeGroups_byteBits, List.map_map]
  exact List.map_id'' (fun b => by rw [Function.comp_apply, BitVec.ofNat_toNat, BitVec.setWidth_eq]) bytes

theorem leftover_of_length_lt {n : Nat} {bits : List Bool} (h : bits.length < n) : leftover n bits = bits := by
  rw [leftover, Nat.div_eq_of_lt h, Nat.mul_zero, List.drop_zero]

/-- The bits left over of the symbols are the zeros that filled the last group (42_decoder.md R151). -/
theorem leftoverBits_groupValues (s : State) (bytes : List Byte) :
    leftoverBits s.k (groupValues s.k bytes) = zeroFill s.k (byteBits bytes).length := by
  rw [leftoverBits_eq, symbolBits_groupValues, leftover_append_of_dvd (by decide) (length_byteBits bytes),
    leftover_of_length_lt (length_zeroFill_lt_byte s _)]

/-- An encoding meets the length rule, STRICT included (42_decoder.md R149 to R151, R156). -/
theorem lengthValid_groupValues (s : State) (bytes : List Byte) :
    LengthValid s (groupValues s.k bytes) (padsAfter s (groupValues s.k bytes).length).length := by
  refine ⟨?_, length_padsAfter_cases s _, fun _ b hb => ?_⟩
  · have hlen := congrArg List.length (leftoverBits_groupValues s bytes)
    rw [leftoverBits_eq, length_leftover, length_symbolBits] at hlen
    rw [hlen]
    exact length_zeroFill_lt s.k_pos _
  · rw [leftoverBits_groupValues] at hb
    exact List.eq_of_mem_replicate hb

/-- Settles O53: the encode frame leaves CFG, SKIP and the ROM, its items read as the groups' values and the pads,
these meet the length rule, and the groups' whole bytes are the bytes. -/
theorem decodeOfEncodeFrameIsTheBytes : Obligations.DecodeOfEncodeFrameIsTheBytes := by
  unfold Obligations.DecodeOfEncodeFrameIsTheBytes
  intro s bs hidle hsym hpad
  have hsuffixed : Suffixed (s.encoded bs) (encoding s bs) _ _ := suffixed_encoding hsym hpad bs
  obtain ⟨u, hrun, hout, hmode, -, -, -, -, -, hverdict, -⟩ :=
    decodeFrameUnpacksTheBitString (s.encoded bs) _ _ _ rfl hsuffixed
  obtain ⟨hdone, herr, -⟩ := hverdict (lengthValid_groupValues s bs)
  have hbytes : wholeBytes (s.encoded bs).k (groupValues s.k bs) = bs := wholeBytes_groupValues s bs
  exact ⟨s.encoded bs, u, encoding s bs, runAll_encodeFrame hidle bs, rfl, hrun, by rw [hout, hbytes], hdone,
    herr, hmode⟩

/-! ### Letter case -/

/-- The decoder tells c and d apart neither by the skip mask nor by their class. -/
def State.SameToDecoder (s : State) (c d : Byte) : Prop := s.skips c = s.skips d ∧ s.classify c = s.classify d

theorem exec_decSym_congr {s : State} {c d : Byte} (h : s.SameToDecoder c d) :
    exec (.decSym c) s = exec (.decSym d) s := by
  have heffect : decSymEffect c s = decSymEffect d s := by rw [decSymEffect, decSymEffect, h.1, h.2]
  have hrule : modeRule (.decSym c) s.mode = modeRule (.decSym d) s.mode := by cases s.mode <;> rfl
  rw [exec_eq_inMode _ _ rfl, exec_eq_inMode _ _ rfl, inMode, inMode, hrule, effectOf, effectOf, heffect]

/-- DEC_SYM writes neither the configuration nor the ROM (42_decoder.md R142). -/
theorem exec_decSym_config {s t : State} {c : Byte} (h : exec (.decSym c) s = .next t) :
    t.cfg = s.cfg ∧ t.skip = s.skip ∧ t.rom = s.rom := by
  rcases exec_effect_or_discards h with ⟨-, -, rfl⟩ | ⟨-, e, rfl, -⟩
  · exact ⟨decSymEffect_cfg c s, decSymEffect_skip c s, decSymEffect_rom c s⟩
  · exact ⟨rfl, rfl, rfl⟩

theorem State.SameToDecoder.congr {s t : State} {c d : Byte} (h : s.SameToDecoder c d)
    (hconfig : t.cfg = s.cfg ∧ t.skip = s.skip ∧ t.rom = s.rom) : t.SameToDecoder c d := by
  obtain ⟨hcfg, hskip, hrom⟩ := hconfig
  simpa only [State.SameToDecoder, State.skips, State.classify, hcfg, hskip, hrom] using h

/-- Sequences the decoder does not tell apart, character by character, run alike. -/
theorem runAll_decSym_congr {s : State} {cs ds : List Byte} (h : List.Forall₂ s.SameToDecoder cs ds)
    (after : List Instr) :
    runAll (cs.map .decSym ++ after) s = runAll (ds.map .decSym ++ after) s := by
  induction cs generalizing s ds with
  | nil => cases h; rfl
  | cons c cs ih =>
    obtain ⟨d, ds, hcd, hrest, rfl⟩ := List.forall₂_cons_left_iff.1 h
    obtain ⟨t, ht⟩ := exec_next (.decSym c) s
    have hd : exec (.decSym d) s = .next t := (exec_decSym_congr hcd).symm.trans ht
    rw [List.map_cons, List.map_cons, List.cons_append, List.cons_append, runAll_cons ht, runAll_cons hd]
    exact ih (hrest.imp fun _ _ hsame => hsame.congr (exec_decSym_config ht))

/-- The case-folding alphabets of the default ROM give both cases of each of the 26 letters one class (40_alphabet.md
R104 to R106, R109). -/
theorem rlut_letter : ∀ a ∈ [Alphabet.base16, .base32, .base32hex], ∀ i < 26,
    defaultRom.rlut a (BitVec.ofNat 8 (0x41 + i) + 0x20) = defaultRom.rlut a (BitVec.ofNat 8 (0x41 + i)) := by decide

theorem rlut_lowerVariant {a : Alphabet} (ha : a ∈ [Alphabet.base16, .base32, .base32hex]) (c : Byte) :
    defaultRom.rlut a (lowerVariant c) = defaultRom.rlut a c := by
  rw [lowerVariant]
  split
  next hletter =>
    obtain ⟨i, hi⟩ := Nat.exists_eq_add_of_le hletter.1
    have hc : c = BitVec.ofNat 8 (0x41 + i) := BitVec.eq_of_toNat_eq (by rw [BitVec.toNat_ofNat]; omega)
    rw [hc]
    exact rlut_letter a ha i (by omega)
  next => rfl

theorem sameToDecoder_of_lowerVariant_eq {s : State} (hrom : s.rom = defaultRom)
    (hfold : s.cfg.alpha ∈ [Alphabet.base16, .base32, .base32hex]) (hskip : ∀ c, s.skips (lowerVariant c) = s.skips c)
    {c d : Byte} (h : lowerVariant c = lowerVariant d) : s.SameToDecoder c d := by
  have hclass (b : Byte) : s.classify b = s.classify (lowerVariant b) := by
    rw [State.classify, hrom, ← rlut_lowerVariant hfold b, State.classify, hrom]
  exact ⟨by rw [← hskip c, h, hskip d], by rw [hclass c, h, hclass d]⟩

/-- Settles O54: the two sequences are alike to the decoder character by character, so the frames run alike. -/
theorem letterCaseDoesNotMatterWhenFolding : Obligations.LetterCaseDoesNotMatterWhenFolding := by
  unfold Obligations.LetterCaseDoesNotMatterWhenFolding
  intro s cs ds hidle hrom hfold hskip hcase
  have hsame : List.Forall₂ (s.openFrame .dec).SameToDecoder cs ds := by
    have hlower : List.Forall₂ Eq (cs.map lowerVariant) (ds.map lowerVariant) := by rwa [List.forall₂_eq_eq_eq]
    refine (List.forall₂_map_left_iff.1 (List.forall₂_map_right_iff.1 hlower)).imp fun _ _ => ?_
    exact sameToDecoder_of_lowerVariant_eq (s := s.openFrame .dec) hrom (by simpa using hfold) hskip
  rw [decodeFrame, decodeFrame, List.cons_append, List.cons_append, runAll_cons (exec_decBegin hidle),
    runAll_cons (exec_decBegin hidle), runAll_decSym_congr hsame]

end Sys2Proof.Machine
end

section
/-! What the read port can show, the default tables, and two facts of the length checks (10_state.md R45; 20_memory.md
R51, R52; 40_alphabet.md section 2; 42_decoder.md section 2). -/

namespace Sys2Proof.Machine

/-! ### The read port -/

/-- Settles O21: CFG and STATUS are sums of their disjoint fields, whose codes are small. -/
theorem reservedCodesNeverRead : Obligations.ReservedCodesNeverRead := by
  unfold Obligations.ReservedCodesNeverRead
  intro s
  have halpha := alphabetCode_le_five s.cfg.alpha
  have hucase := s.cfg.ucase.toNat_le
  have hpad := s.cfg.padEn.toNat_le
  have hstrict := s.cfg.strict.toNat_le
  have hmode := modeCode_lt_four s.mode
  have herr := errCode_le_two s.err
  have hcmd := cmdErrCode_le_two s.cmdErr
  rw [readPort_cfg_toNat, cfgByte_toNat, readPort_status, s.status_toNat]
  omega

/-- The read port never shows OUT, the ROM or the presented events (20_memory.md R51). -/
theorem readPort_resetEvent (s : State) (a : BitVec 8) : readPort s.resetEvent a = readPort State.reset a := rfl

/-- At every address of the reset state (10_state.md R46; 20_memory.md R51, R52). -/
theorem readPort_reset : ∀ a : BitVec 8,
    readPort State.reset a = if a = 0x00 then 0x1C else if a = 0x01 then 0x600 else 0 := by decide

/-- Settles O28: the port shows what the reset state shows, address by address. -/
theorem readsAfterAReset : Obligations.ReadsAfterAReset := by
  unfold Obligations.ReadsAfterAReset
  intro s t rest a hin h
  rw [step_reset s rest hin] at h
  cases h
  rw [readPort_resetEvent, readPort_reset]

/-! ### The default tables -/

/-- Settles O37: the tables evaluate, symbol by symbol. -/
theorem defaultAlphabetSymbols : Obligations.DefaultAlphabetSymbols := by
  unfold Obligations.DefaultAlphabetSymbols
  refine ⟨?_, ?_, ?_, ?_, ?_, ?_⟩ <;> decide

/-- The lower-case variants that are a letter plus 0x20 (40_alphabet.md R109). -/
theorem AlphabetRom.fwd_false_of_low_eq_map {r : AlphabetRom} {a : Alphabet}
    (hlow : (r.data.entry a).low = some ((r.data.entry a).up.map lowerVariant)) (v : Nat) :
    r.fwd a false v = lowerVariant (r.fwd a true v) := by
  rw [AlphabetRom.fwd_false_of_low hlow, AlphabetRom.fwd_true]
  exact List.getD_map _ 0 lowerVariant

/-- Every alphabet of the default ROM with case variants has those (40_alphabet.md R104 to R106, R109). -/
theorem defaultRom_low {a : Alphabet} (hfold : defaultRom.fold a = true) :
    (defaultRom.data.entry a).low = some ((defaultRom.data.entry a).up.map lowerVariant) := by
  cases a with
  | base16 | base32 | base32hex => rfl
  | base2 | base64 | base64url => cases hfold

/-- Settles O38: the default tables evaluate, and an alphabet without case variants has one table. -/
theorem defaultCaseVariantsAndPads : Obligations.DefaultCaseVariantsAndPads := by
  unfold Obligations.DefaultCaseVariantsAndPads
  refine ⟨fun a v _ hfold => ?variants, fun r a v hfold => AlphabetRom.fwd_of_fold_eq_false hfold v, fun a => ?folds,
    fun a => ?pads⟩
  case variants => exact AlphabetRom.fwd_false_of_low_eq_map (defaultRom_low hfold) v
  case folds => cases a <;> decide
  case pads => cases a <;> decide

/-! ### The length checks -/

/-- Settles O49: a saturated count is not 0 and not below 8, as the pads due are; no data symbol is taken and no pad
adds to it. -/
theorem saturatedPadCountNeverPasses : Obligations.SaturatedPadCountNeverPasses := by
  unfold Obligations.SaturatedPadCountNeverPasses
  intro s hdec hsat
  refine ⟨fun c t h => ?stays, ?fails⟩
  case stays =>
    rw [exec_of_mem_okModes rfl (by simp [hdec])] at h
    cases h
    rcases decSymEffect_cases c s with ⟨-, heq⟩ | ⟨-, -, heq⟩ | ⟨-, -, heq⟩ | ⟨v, -, -, -, hzero, -⟩
    · rw [effectOf, heq, ← hsat]
    · rw [effectOf, heq, ← hsat]
    · rw [effectOf, heq]
      exact (congrArg satInc hsat).trans (if_pos rfl)
    · rw [hzero] at hsat
      exact absurd hsat (by decide)
  case fails =>
    have hcount : s.padcnt.toNat = 2 ^ 32 - 1 := by rw [hsat]; rfl
    have hdue : padsDue s.k s.datacnt.toNat < 8 := (padsDue_spec s _).1.trans_le (Nat.div_le_self 8 _)
    have hbad : s.lengthOk = false := s.lengthOk_eq_false_iff.2 (.inr (.inl (by omega)))
    refine ⟨_, exec_of_mem_okModes rfl (by simp [hdec]), ?_⟩
    rw [effectOf, decVerdict_dec hdec, hbad]
    exact ⟨rfl, rfl⟩

/-- Settles O50: d symbols of width k leave d * k bits modulo 8, which depends on d modulo the block alone. -/
theorem legalResiduesByWidth : Obligations.LegalResiduesByWidth := by
  unfold Obligations.LegalResiduesByWidth
  simp only [symbolsPerBlock_1, symbolsPerBlock_4, symbolsPerBlock_5, symbolsPerBlock_6, List.mem_cons,
    List.not_mem_nil, or_false, padsDue]
  refine ⟨by omega, by omega, by omega, by omega, fun d hd => ?five, fun d hd => ?six⟩
  case five => rcases hd with h | h | h | h | h <;> rw [h] <;> rfl
  case six => rcases hd with h | h | h <;> rw [h] <;> rfl

end Sys2Proof.Machine
end
